-- ==== Sys2Proof/Word.lean ====
section
/-! DEFINITION. The words of the command interface (spec/00_scope.md R12, spec/20_memory.md R41). -/

namespace Sys2Proof

/-- A word: an unsigned 32-bit value, bit 0 least significant (R12). Commands and responses are words, moved whole (R41). -/
abbrev Word := BitVec 32

/-- A 12-bit line vector in the layout of R54: a POLL sample, the levels READ_LEVELS returns, INIT_LEVELS. -/
abbrev Lines := BitVec 12

/-- A register wide enough for the longest legal history window, 8 samples (R7, R21, R23).
DESIGN CHOICE (log 6): a window of N samples occupies its low N bits, newest sample at bit 0. -/
abbrev Window := BitVec 8

end Sys2Proof
end

