-- ==== Sys2Proof/Config.lean ====
section
/-! DEFINITION. What is fixed when the block is built (spec/00_scope.md R7). The spec leaves no produced value open,
so there is no free value here. POLL_PERIOD and ROLE_MAP (R8) are used by no rule and are left out (log 11). -/

namespace Sys2Proof

/-- `BView` (R13): which of phase B's stable levels decides a direction, the one after this tick's update or the one before it (R87). -/
inductive BView where
  | after
  | before
deriving DecidableEq, Repr

/-- The four parameters of R7, "arguments the model receives at construction". -/
structure Params where
  /-- N_SW, the window length of a switch line. -/
  nSw : Nat
  /-- N_ENC, the window length of an encoder phase line. -/
  nEnc : Nat
  /-- INIT_LEVELS, in the layout of R54. -/
  initLevels : Lines
  /-- ENC_B_VIEW. -/
  encBView : BView
deriving DecidableEq, Repr

/-- The defaults of R7. -/
def Params.default : Params where
  nSw := 4
  nEnc := 2
  initLevels := 0x000#12
  encBView := .after

end Sys2Proof
end

