-- ==== Sys2Proof/Syntax.lean ====
section
/-! DEFINITION. The command set (spec/30_encoding.md R52), one constructor per row of spec/opcode_table.json. -/

namespace Sys2Proof

/-- The four commands of the block. Only POLL has an operand (R53). -/
inductive Instr where
  /-- `RESET` (R100). -/
  | reset
  /-- `POLL s`: one input-poll tick with the raw sample `s` (R110). -/
  | poll (sample : Lines)
  /-- `READ_LEVELS` (R120). -/
  | readLevels
  /-- `READ_EVENTS` (R122). -/
  | readEvents
deriving DecidableEq, Repr

end Sys2Proof
end

