-- ==== Sys2Proof/WellFormed.lean ====
section
/-! DEFINITION. The checks on plain data. `Instr` needs none: POLL's operand is a 12-bit vector by its type, and all 4096
samples are legal (spec/43_poll.md R110, spec/60_exceptions.md R132). The check on raw command words (R58) is `illegalWord` in
Sys2Proof/Decode.lean. -/

namespace Sys2Proof

/-- A window length is legal when it lies in 1..8 (R7). -/
def windowLengthOk (n : Nat) : Bool := 1 ≤ n && n ≤ 8

/-- R7: the legal values of the parameters. INIT_LEVELS may be any vector, and both views are legal. -/
def Params.wellFormed (p : Params) : Bool := windowLengthOk p.nSw && windowLengthOk p.nEnc

end Sys2Proof
end

