-- ==== Sys2Proof/Decode.lean ====
section
/-! DEFINITION. Decoding and encoding of command words (spec/30_encoding.md R50-R53, R58, R59). There is one format of 32
bits (R51). -/

namespace Sys2Proof

/-- OP = `cmd[31:28]` (R50). -/
def cmdOp (cmd : Word) : BitVec 4 := cmd.extractLsb' 28 4

/-- RSV = `cmd[27:12]` (R50). -/
def cmdRsv (cmd : Word) : BitVec 16 := cmd.extractLsb' 12 16

/-- PAYLOAD = `cmd[11:0]` (R50). -/
def cmdPayload (cmd : Word) : Lines := cmd.extractLsb' 0 12

/-- R58: the conditions (a), (b) and (c) under which a command word is illegal. -/
def illegalWord (cmd : Word) : Bool :=
  (cmdOp cmd == 0x0#4 || 0x5#4 ≤ cmdOp cmd)
    || cmdRsv cmd != 0#16
    || ((cmdOp cmd == 0x1#4 || cmdOp cmd == 0x3#4 || cmdOp cmd == 0x4#4) && cmdPayload cmd != 0#12)

/-- Why a word is no command. One name, because a word that is illegal for several reasons raises one IllegalCommand (R134). -/
inductive DecodeError where
  /-- ILLEGAL of R59, with the word that R131 records. -/
  | illegalCommand (cmd : Word)
deriving DecidableEq, Repr

/-- R59's `decode`, total on all words. -/
def decode (cmd : Word) : Except DecodeError Instr :=
  if cmdRsv cmd ≠ 0#16 then .error (.illegalCommand cmd)
  else if cmdOp cmd = 0x1#4 then
    if cmdPayload cmd = 0#12 then .ok .reset else .error (.illegalCommand cmd)
  else if cmdOp cmd = 0x2#4 then .ok (.poll (cmdPayload cmd))
  else if cmdOp cmd = 0x3#4 then
    if cmdPayload cmd = 0#12 then .ok .readLevels else .error (.illegalCommand cmd)
  else if cmdOp cmd = 0x4#4 then
    if cmdPayload cmd = 0#12 then .ok .readEvents else .error (.illegalCommand cmd)
  else .error (.illegalCommand cmd)

/-- A command word put together from OP and PAYLOAD, with RSV = 0 (R50, R53). -/
def commandWord (op : BitVec 4) (payload : Lines) : Word := (op.setWidth 32 <<< 28) ||| payload.setWidth 32

/-- The word of a command (R52, R53). -/
def encode : Instr → Word
  | .reset => commandWord 0x1#4 0#12
  | .poll sample => commandWord 0x2#4 sample
  | .readLevels => commandWord 0x3#4 0#12
  | .readEvents => commandWord 0x4#4 0#12

/-- What the decoder reads from the low `nbits` bits of `w`, the bits above them being 0. -/
def decodeTableWord (nbits w : Nat) : Option Instr :=
  match decode (BitVec.ofNat 32 (w % 2 ^ nbits)) with
  | .ok i => some i
  | .error _ => none

end Sys2Proof
end

