-- ==== Sys2Proof/Machine/Operands.lean ====
section
/-! DEFINITION. The operand forms: the line vector's layout (spec/30_encoding.md R53, R54) and the window values `ones(N)`
and 0 (spec/00_scope.md R12). -/

namespace Sys2Proof.Machine

/-- The bit of switch `i` in a line vector: bits 0 to 3 (R54). -/
def switchBit (v : Lines) (i : Fin 4) : Bool := v.getLsbD i

/-- The bit of encoder `j`'s phase A in a line vector: bits 4 to 7 (R54). -/
def phaseABit (v : Lines) (j : Fin 4) : Bool := v.getLsbD (4 + j)

/-- The bit of encoder `j`'s phase B in a line vector: bits 8 to 11 (R54). -/
def phaseBBit (v : Lines) (j : Fin 4) : Bool := v.getLsbD (8 + j)

/-- Four 1-bit values with number 0 lowest. -/
def bits4 (f : Fin 4 → Bool) : BitVec 4 :=
  BitVec.ofBool (f 3) ++ BitVec.ofBool (f 2) ++ BitVec.ofBool (f 1) ++ BitVec.ofBool (f 0)

/-- The line vector whose three groups of four are the given bits (R54). -/
def lineVector (sw a b : Fin 4 → Bool) : Lines := bits4 b ++ bits4 a ++ bits4 sw

/-- `level ? ones(N) : 0`, a uniform window of length `n` (R33). -/
def uniformWindow (n : Nat) (level : Bool) : Window :=
  if level then (BitVec.allOnes n).setWidth 8 else 0#8

end Sys2Proof.Machine
end

