-- ==== Sys2Proof/Machine/Registers.lean ====
section
/-! DEFINITION. The block's registers (spec/10_state.md R20-R26) and the values power-on and RESET give them (R33). -/

namespace Sys2Proof.Machine

/-- `Edge` (R13). -/
inductive Edge where
  | none
  | rising
  | falling
deriving DecidableEq, Repr

/-- `Dir` (R13). -/
inductive Dir where
  | none
  | cw
  | ccw
deriving DecidableEq, Repr

/-- One line's debouncer: its history window and its last stable level (R20). -/
structure Debouncer where
  /-- `sw_hist[i]`, `a_hist[j]` or `b_hist[j]`: newest sample at bit 0 (R21, R23). -/
  hist : Window
  /-- `sw_stable[i]`, `a_stable[j]` or `b_stable[j]` (R22, R24). -/
  stable : Bool
deriving DecidableEq, Repr

/-- One switch: its line and `sw_edge[i]` (R21, R22, R25). -/
structure Switch where
  line : Debouncer
  edge : Edge
deriving DecidableEq, Repr

/-- One rotary encoder: its two phase lines and `enc_evt[j]` (R23, R24, R26). -/
structure Encoder where
  a : Debouncer
  b : Debouncer
  evt : Dir
deriving DecidableEq, Repr

/-- A line at its initial level: the window full of it, and stable at it (R33). -/
def initialLine (n : Nat) (level : Bool) : Debouncer := ⟨uniformWindow n level, level⟩

/-- The four switches after power-on or RESET (R33). -/
def initialSwitches (p : Params) : Vector Switch 4 :=
  Vector.ofFn fun i => ⟨initialLine p.nSw (switchBit p.initLevels i), .none⟩

/-- The four encoders after power-on or RESET (R33). -/
def initialEncoders (p : Params) : Vector Encoder 4 :=
  Vector.ofFn fun j =>
    ⟨initialLine p.nEnc (phaseABit p.initLevels j), initialLine p.nEnc (phaseBBit p.initLevels j), .none⟩

end Sys2Proof.Machine
end

