-- ==== Sys2Proof/Machine/State.lean ====
section
/-! DEFINITION. The state of the machine (spec/10_state.md R20, R27; spec/60_exceptions.md R131), what stops it, and the
state after power-on (spec/70_reset_and_hazards.md R150). -/

namespace Sys2Proof.Machine

/-- One input from the host (R9): a command word, or, in the port view of R61, one sampling of the input ports. -/
inductive HostInput where
  /-- A 32-bit command word (R50). -/
  | command (cmd : Word)
  /-- The levels of `raw`, `poll` and `rst` (R61). -/
  | ports (raw : Lines) (poll rst : Bool)
deriving DecidableEq, Repr

/-- Everything the spec gives the machine, and the host's side of the command port. -/
structure State where
  /-- The parameters the block was built with (R7). DESIGN CHOICE (log 1): carried here, so that every statement holds for every setting; no step changes them. -/
  params : Params
  /-- `sw_hist`, `sw_stable`, `sw_edge` of switches 0..3 (R20). -/
  switches : Vector Switch 4
  /-- `a_hist`, `a_stable`, `b_hist`, `b_stable`, `enc_evt` of encoders 0..3 (R20). -/
  encoders : Vector Encoder 4
  /-- `fault` (R27). -/
  fault : Bool
  /-- The word IllegalCommand recorded (R131); none while no command has faulted. DESIGN CHOICE (log 5). -/
  faultCmd : Option Word
  /-- The host's inputs not yet taken, oldest first (R9, R44). DESIGN CHOICE (log 2): the model's own field. -/
  inbox : List HostInput
  /-- The response word of the latest command (R57); none before the first one and after an illegal one. DESIGN CHOICE (log 3): the model's own field. -/
  response : Option Word
deriving DecidableEq, Repr

/-- Why the machine stops with a fault. -/
inductive Fault where
  /-- The block is faulted, so it has no further step (R27, R131). Raised by `exec` and `step` in every state with `fault` = 1.
  Safe: the spec says that no further command has a step. -/
  | illegalCommand
deriving DecidableEq, Repr

/-- Why the model gives no answer. -/
inductive Refusal where
  /-- An instruction without a meaning yet. No arm of `exec` answers with it. Safe: nothing can be proved of a refused step. -/
  | notModelled (mnemonic : String)
  /-- `construct` refuses parameters outside R7's legal values. No step raises it. Safe: the spec says the model must refuse to construct the block. -/
  | illegalParameters
deriving DecidableEq, Repr

/-- The block built with the parameters `p`, at power-on (R33, R150), no input waiting and no response given. -/
def State.powerOn (p : Params) : State where
  params := p
  switches := initialSwitches p
  encoders := initialEncoders p
  fault := false
  faultCmd := none
  inbox := []
  response := none

/-- The machine right after reset, built with the default parameters of R7. -/
def State.reset : State := State.powerOn Params.default

end Sys2Proof.Machine
end

