-- ==== Sys2Proof/Machine/Flags.lean ====
section
/-! DEFINITION. The block's flags are its events: how an edge and a direction are found (spec/40_debounce.md R71, R73;
spec/41_rotary.md R86, R87), their codes (spec/30_encoding.md R56), and the level and event words (R54, R55, R57, R111, R120). -/

namespace Sys2Proof.Machine

/-- The edge between two successive stable levels (R71, R73). -/
def edgeOf (old new : Bool) : Edge :=
  match old, new with
  | false, true => .rising
  | true, false => .falling
  | _, _ => .none

/-- `bv`, the level of phase B that decides the direction (R86, R87). -/
def viewedB (view : BView) (old new : Bool) : Bool :=
  match view with
  | .after => new
  | .before => old

/-- The direction an encoder reports: only a rising edge of phase A gives one (R86, R88). -/
def dirOf (ea : Edge) (bv : Bool) : Dir :=
  match ea with
  | .rising => if bv then .ccw else .cw
  | .falling => .none
  | .none => .none

/-- The 2-bit code of an edge (R56). -/
def Edge.code : Edge → BitVec 2
  | .none => 0b00#2
  | .rising => 0b01#2
  | .falling => 0b10#2

/-- The 2-bit code of a direction (R56). -/
def Dir.code : Dir → BitVec 2
  | .none => 0b00#2
  | .cw => 0b01#2
  | .ccw => 0b10#2

/-- Reading an edge code back; 11 is impossible (R56). -/
def Edge.ofCode (c : BitVec 2) : Option Edge :=
  if c = 0b00#2 then some .none
  else if c = 0b01#2 then some .rising
  else if c = 0b10#2 then some .falling
  else Option.none

/-- Reading a direction code back; 11 is impossible (R56). -/
def Dir.ofCode (c : BitVec 2) : Option Dir :=
  if c = 0b00#2 then some .none
  else if c = 0b01#2 then some .cw
  else if c = 0b10#2 then some .ccw
  else Option.none

/-- Four 2-bit codes with number 0 lowest (R55). -/
def codes4 (f : Fin 4 → BitVec 2) : BitVec 8 := f 3 ++ f 2 ++ f 1 ++ f 0

/-- `EventWord()` (R111), in the layout of R55. -/
def eventWord (s : State) : Word :=
  (codes4 (fun j => s.encoders[j].evt.code) ++ codes4 (fun i => s.switches[i].edge.code)).setWidth 32

/-- The event word's field of switch `i`, bits `[2i+1:2i]` (R55). -/
def eventWordEdge (w : Word) (i : Fin 4) : BitVec 2 := w.extractLsb' (2 * i) 2

/-- The event word's field of encoder `j`, bits `[8+2j+1:8+2j]` (R55). -/
def eventWordDir (w : Word) (j : Fin 4) : BitVec 2 := w.extractLsb' (8 + 2 * j) 2

/-- The stable levels as a line vector (R57, R120). -/
def stableLevels (s : State) : Lines :=
  lineVector (fun i => s.switches[i].line.stable) (fun j => s.encoders[j].a.stable) (fun j => s.encoders[j].b.stable)

/-- The level word: the stable levels, zero-extended (R57, R120). -/
def levelWord (s : State) : Word := (stableLevels s).setWidth 32

end Sys2Proof.Machine
end

