-- ==== Sys2Proof/Machine/Ops.lean ====
section
/-! DEFINITION. The operations all commands share: the guard of a faulted block, giving a response, raising IllegalCommand
(spec/60_exceptions.md R131), taking the host's inputs (spec/20_memory.md R44) and building the block (spec/00_scope.md R7). -/

namespace Sys2Proof.Machine

/-- The state with other switch and encoder registers. -/
def State.setUnits (sw : Vector Switch 4) (enc : Vector Encoder 4) (s : State) : State :=
  { s with switches := sw, encoders := enc }

/-- The state with a response word. -/
def State.setResponse (w : Word) (s : State) : State := { s with response := some w }

/-- The state with other waiting inputs. -/
def State.setInbox (l : List HostInput) (s : State) : State := { s with inbox := l }

/-- `fault <- 1` with the offending word recorded, and no response (R57, R102, R131). -/
def State.setFault (cmd : Word) (s : State) : State :=
  { s with fault := true, faultCmd := some cmd, response := none }

/-- A faulted block has no further step (R27, R131); any other goes on to `t`. -/
def ifRunning (s t : State) : Host.Outcome State Fault Refusal :=
  if s.fault then .fault .illegalCommand else .next t

/-- A legal command: its effect on the registers, then its response, read from the state after the effect (R43, R57). -/
def complete (effect : State → State) (answer : State → Word) (s : State) : Host.Outcome State Fault Refusal :=
  ifRunning s ((effect s).setResponse (answer (effect s)))

/-- IllegalCommand (R102, R131): the faulted state. DEDUCED (log 4): this step answers a next state, and every later one a fault. -/
def raiseIllegalCommand (cmd : Word) (s : State) : Host.Outcome State Fault Refusal :=
  ifRunning s (s.setFault cmd)

/-- The exception's cause code (R131). -/
def Fault.causeCode : Fault → Nat
  | .illegalCommand => 1

/-- Nothing to do: the block waits for the host's next command (R151). DESIGN CHOICE (log 2): waiting is a step that changes nothing. -/
def wait (s : State) : Host.Outcome State Fault Refusal := ifRunning s s

/-- What an input asks of the block. -/
inductive Request where
  /-- Run a command. -/
  | run (i : Instr)
  /-- A word that is no command (R58). -/
  | illegal (cmd : Word)
  /-- No action: the ports carry neither a poll pulse nor a reset request (R61). -/
  | nothing
deriving DecidableEq, Repr

/-- A command word is decoded (R59). -/
def wordRequest (cmd : Word) : Request :=
  match decode cmd with
  | .ok i => .run i
  | .error (.illegalCommand c) => .illegal c

/-- Each port action is the command it stands for, and `rst` wins over a simultaneous `poll` (R61, R134). -/
def portRequest (raw : Lines) (poll rst : Bool) : Request :=
  if rst then .run .reset else if poll then .run (.poll raw) else .nothing

/-- What one input of the host asks of the block (R10, R61). -/
def inputRequest : HostInput → Request
  | .command cmd => wordRequest cmd
  | .ports raw poll rst => portRequest raw poll rst

/-- The oldest waiting input's request, and the state with that input taken (R44); `nothing` when none waits. -/
def takeRequest (s : State) : Request × State :=
  match s.inbox with
  | [] => (.nothing, s)
  | input :: rest => (inputRequest input, s.setInbox rest)

/-- The `level` port: the READ_LEVELS response's bits [11:0] (R61). -/
def levelPort (s : State) : Lines := (levelWord s).extractLsb' 0 12

/-- The `events` port: the event word's bits [15:0] (R61). -/
def eventsPort (s : State) : BitVec 16 := (eventWord s).extractLsb' 0 16

/-- Building the block and powering it on: parameters outside R7's legal values are refused (R7, R132). -/
def construct (p : Params) : Host.Outcome State Fault Refusal :=
  if p.wellFormed then .next (State.powerOn p) else .refused .illegalParameters

end Sys2Proof.Machine
end

