-- ==== Sys2Proof/Machine/Control.lean ====
section
/-! DEFINITION. RESET (spec/42_control.md R100, R101). -/

namespace Sys2Proof.Machine

/-- RESET's effect: every register of R20 except `fault` to its value of R33; the parameters stay (R101). -/
def resetUnits (s : State) : State := s.setUnits (initialSwitches s.params) (initialEncoders s.params)

/-- `RESET` (R100): response 0x00000000. -/
def execReset (s : State) : Host.Outcome State Fault Refusal := complete resetUnits (fun _ => 0x00000000#32) s

end Sys2Proof.Machine
end

