-- ==== Sys2Proof/Machine/Debounce.lean ====
section
/-! DEFINITION. The debounce primitive (spec/40_debounce.md R70, R71), and its use on one line's registers. -/

namespace Sys2Proof.Machine

/-- `Debounce(N, h, s, r) -> (h', s', e)` (R71). -/
def debounce (n : Nat) (h : BitVec n) (s r : Bool) : BitVec n × Bool × Edge :=
  let h' := (h <<< 1) ||| (BitVec.ofBool r).setWidth n
  let s' := if h' = BitVec.allOnes n then true else if h' = 0#n then false else s
  (h', s', edgeOf s s')

/-- One line takes one raw sample: the low `n` bits of its window register are its window (R70, log 6). The edge is returned, not stored. -/
def sampleLine (n : Nat) (d : Debouncer) (r : Bool) : Debouncer × Edge :=
  let res := debounce n (d.hist.setWidth n) d.stable r
  (⟨res.1.setWidth 8, res.2.1⟩, res.2.2)

end Sys2Proof.Machine
end

