-- ==== Sys2Proof/Machine/Poll.lean ====
section
/-! DEFINITION. POLL (spec/43_poll.md R110, R111): the switch step (spec/40_debounce.md R79) and the rotary step
(spec/41_rotary.md R86) on every unit. -/

namespace Sys2Proof.Machine

/-- `SwitchStep` (R79): the switch's line takes the sample and its edge register is overwritten. -/
def switchStep (p : Params) (sw : Switch) (r : Bool) : Switch :=
  let res := sampleLine p.nSw sw.line r
  ⟨res.1, res.2⟩

/-- `RotaryStep` (R86): both phase lines take their samples, phase B's edge is discarded, the event register is overwritten. -/
def rotaryStep (p : Params) (enc : Encoder) (ra rb : Bool) : Encoder :=
  let resA := sampleLine p.nEnc enc.a ra
  let resB := sampleLine p.nEnc enc.b rb
  ⟨resA.1, resB.1, dirOf resA.2 (viewedB p.encBView enc.b.stable resB.1.stable)⟩

/-- POLL's effect: every line is updated from the state before the command (R14, R110). -/
def pollUnits (sample : Lines) (s : State) : State :=
  s.setUnits
    (Vector.ofFn fun i => switchStep s.params s.switches[i] (switchBit sample i))
    (Vector.ofFn fun j => rotaryStep s.params s.encoders[j] (phaseABit sample j) (phaseBBit sample j))

/-- `POLL s` (R110): the response is the event word of the values just written (R111). -/
def execPoll (sample : Lines) (s : State) : Host.Outcome State Fault Refusal := complete (pollUnits sample) eventWord s

end Sys2Proof.Machine
end

