-- ==== Sys2Proof/Machine/Read.lean ====
section
/-! DEFINITION. The read commands (spec/44_read.md R120, R122): neither writes a register. -/

namespace Sys2Proof.Machine

/-- `READ_LEVELS` (R120). -/
def execReadLevels (s : State) : Host.Outcome State Fault Refusal := complete id levelWord s

/-- `READ_EVENTS` (R122): the read does not clear the events. -/
def execReadEvents (s : State) : Host.Outcome State Fault Refusal := complete id eventWord s

end Sys2Proof.Machine
end

