-- ==== Sys2Proof/Machine/Dispatch.lean ====
section
/-! DEFINITION. One arm per command (spec/30_encoding.md R52). -/

namespace Sys2Proof.Machine

def exec (i : Instr) (s : State) : Host.Outcome State Fault Refusal :=
  match i with
  | .reset => Sys2Proof.Machine.execReset s
  | .poll sample => Sys2Proof.Machine.execPoll sample s
  | .readLevels => Sys2Proof.Machine.execReadLevels s
  | .readEvents => Sys2Proof.Machine.execReadEvents s

end Sys2Proof.Machine
end

