-- ==== Sys2Proof/Machine/Step.lean ====
section
/-! DEFINITION. One step: take the host's oldest input and do what it asks (spec/00_scope.md R9, spec/20_memory.md R43, R44). -/

namespace Sys2Proof.Machine

/-- Take the oldest waiting input and run it; wait when there is none. -/
def step (s : State) : Host.Outcome State Fault Refusal :=
  match takeRequest s with
  | (.run i, t) => exec i t
  | (.illegal cmd, t) => raiseIllegalCommand cmd t
  | (.nothing, t) => wait t

/-- The state in which the host has put the given command word in front of its other inputs, so that the next step takes it (log 2). -/
def State.withFetchWord (s : State) (nbits w : Nat) : State :=
  { s with inbox := .command (BitVec.ofNat 32 (w % 2 ^ nbits)) :: s.inbox }

end Sys2Proof.Machine
end

