-- ==== Sys2Proof/Machine/Assembler.lean ====
section
/-! DEFINITION. The textual form of each command (spec/30_encoding.md R60), as a line of characters. What the rule's
examples leave open about digits and spaces is fixed by log 10. -/

namespace Sys2Proof.Machine

def resetName : List Char := ['R', 'E', 'S', 'E', 'T']
def pollName : List Char := ['P', 'O', 'L', 'L']
def readLevelsName : List Char := ['R', 'E', 'A', 'D', '_', 'L', 'E', 'V', 'E', 'L', 'S']
def readEventsName : List Char := ['R', 'E', 'A', 'D', '_', 'E', 'V', 'E', 'N', 'T', 'S']

/-- The parts of a line between its spaces; the first list is the part still open at the front. -/
def splitSpaces : List Char → List Char × List (List Char)
  | [] => ([], [])
  | c :: cs =>
    let rest := splitSpaces cs
    if c = ' ' then ([], if rest.1 = [] then rest.2 else rest.1 :: rest.2) else (c :: rest.1, rest.2)

/-- The non-empty parts of a line between its spaces. -/
def lineParts (cs : List Char) : List (List Char) :=
  let parts := splitSpaces cs
  if parts.1 = [] then parts.2 else parts.1 :: parts.2

/-- A digit's value in the given base; hexadecimal digits of either case (DESIGN CHOICE, log 10). -/
def digitValue (base : Nat) (c : Char) : Option Nat :=
  let v := c.toNat
  let d := if 48 ≤ v ∧ v ≤ 57 then v - 48 else if 65 ≤ v ∧ v ≤ 70 then v - 55 else if 97 ≤ v ∧ v ≤ 102 then v - 87 else base
  if d < base then some d else none

/-- The number that digits spell, most significant first, continuing from `acc`. -/
def readDigits (base acc : Nat) : List Char → Option Nat
  | [] => some acc
  | c :: cs =>
    match digitValue base c with
    | some d => readDigits base (acc * base + d) cs
    | none => none

/-- A number that must fit `bits` bits. -/
def fitsBits (bits : Nat) (n : Option Nat) : Option (BitVec bits) :=
  match n with
  | some v => if v < 2 ^ bits then some (BitVec.ofNat bits v) else none
  | none => none

/-- A group in binary (`0b0010`), bit 0 rightmost (R60). -/
def readBinary (bits : Nat) (cs : List Char) : Option (BitVec bits) :=
  match cs with
  | '0' :: 'b' :: d :: ds => fitsBits bits (readDigits 2 0 (d :: ds))
  | _ => none

/-- POLL's operand in hexadecimal (`0x123`) or binary (R60). -/
def readSample (cs : List Char) : Option Lines :=
  match cs with
  | '0' :: 'x' :: d :: ds => fitsBits 12 (readDigits 16 0 (d :: ds))
  | _ => readBinary 12 cs

/-- The rest of a part after the given lead (`sw=`, `a=`, `b=`). -/
def afterLead : List Char → List Char → Option (List Char)
  | [], cs => some cs
  | _ :: _, [] => none
  | k :: ks, c :: cs => if c = k then afterLead ks cs else none

/-- One group of POLL's field form. -/
def readField (lead cs : List Char) : Option (BitVec 4) :=
  match afterLead lead cs with
  | some rest => readBinary 4 rest
  | none => none

/-- The field form assembles to `s = sw | (a << 4) | (b << 8)` (R60). -/
def fieldSample (sw a b : BitVec 4) : Lines :=
  sw.setWidth 12 ||| (a.setWidth 12 <<< 4) ||| (b.setWidth 12 <<< 8)

/-- POLL's field form (R60). -/
def parseFields (psw pa pb : List Char) : Option Instr :=
  match readField ['s', 'w', '='] psw, readField ['a', '='] pa, readField ['b', '='] pb with
  | some sw, some a, some b => some (.poll (fieldSample sw a b))
  | _, _, _ => none

/-- The command a line of text stands for (R60). -/
def parseLine (cs : List Char) : Option Instr :=
  match lineParts cs with
  | [name] =>
    if name = resetName then some .reset
    else if name = readLevelsName then some .readLevels
    else if name = readEventsName then some .readEvents
    else none
  | [name, arg] => if name = pollName then (readSample arg).map .poll else none
  | [name, psw, pa, pb] => if name = pollName then parseFields psw pa pb else none
  | _ => none

/-- The word a line of text assembles to (R60). -/
def assembleLine (cs : List Char) : Option Word := (parseLine cs).map encode

/-- One hexadecimal digit, upper case. -/
def hexDigit (n : Nat) : Char := if n < 10 then Char.ofNat (48 + n) else Char.ofNat (55 + n)

/-- The bits of a vector as binary digits, bit 0 rightmost. -/
def binaryDigits : (k : Nat) → BitVec k → List Char
  | 0, _ => []
  | k + 1, v => (if v.getLsbD k then '1' else '0') :: binaryDigits k (v.setWidth k)

/-- A command's text, with POLL's operand as three hexadecimal digits (R60). -/
def commandText : Instr → List Char
  | .reset => resetName
  | .poll s => pollName ++ [' ', '0', 'x', hexDigit (s.toNat / 256), hexDigit (s.toNat / 16 % 16), hexDigit (s.toNat % 16)]
  | .readLevels => readLevelsName
  | .readEvents => readEventsName

/-- POLL's text with its operand as twelve binary digits (R60). -/
def pollBinaryText (s : Lines) : List Char := pollName ++ [' ', '0', 'b'] ++ binaryDigits 12 s

/-- POLL's text in the field form (R60). -/
def pollFieldText (sw a b : BitVec 4) : List Char :=
  pollName ++ [' ', 's', 'w', '=', '0', 'b'] ++ binaryDigits 4 sw ++ [' ', 'a', '=', '0', 'b'] ++ binaryDigits 4 a
    ++ [' ', 'b', '=', '0', 'b'] ++ binaryDigits 4 b

end Sys2Proof.Machine
end

