-- ==== Sys2Proof/Safety.lean ====
section
/-! DEFINITION. What a good state is (spec/10_state.md R33, R34), and runs of one line, one encoder and the machine, in the terms the
statements use. -/

namespace Sys2Proof.Machine

/-- The window of a line: the low `n` bits of its register (R21, R23). -/
def lineWindow (n : Nat) (d : Debouncer) : BitVec n := d.hist.setWidth n

/-- R34, and that the register holds nothing above the window's `n` bits. -/
abbrev LineOk (n : Nat) (d : Debouncer) : Prop :=
  d.hist.toNat < 2 ^ n
    ∧ (lineWindow n d = BitVec.allOnes n → d.stable = true)
    ∧ (lineWindow n d = 0#n → d.stable = false)

/-- A switch whose line is consistent, and whose edge register agrees with the window that gave the edge (R71). -/
abbrev SwitchOk (p : Params) (sw : Switch) : Prop :=
  LineOk p.nSw sw.line
    ∧ (sw.edge = .rising → lineWindow p.nSw sw.line = BitVec.allOnes p.nSw ∧ sw.line.stable = true)
    ∧ (sw.edge = .falling → lineWindow p.nSw sw.line = 0#p.nSw ∧ sw.line.stable = false)

/-- An encoder whose lines are consistent, and whose event register agrees with phase A's rise and, under AFTER, with
phase B's level (R86). -/
abbrev EncoderOk (p : Params) (enc : Encoder) : Prop :=
  LineOk p.nEnc enc.a ∧ LineOk p.nEnc enc.b
    ∧ (enc.evt ≠ .none → lineWindow p.nEnc enc.a = BitVec.allOnes p.nEnc ∧ enc.a.stable = true)
    ∧ (p.encBView = .after → enc.evt = .cw → enc.b.stable = false)
    ∧ (p.encBView = .after → enc.evt = .ccw → enc.b.stable = true)

/-- A good state: legal parameters (R7), consistent units (R34), a word recorded exactly when the block is faulted (R131), and
no response left by an illegal command (R57). -/
abbrev State.Inv (s : State) : Prop :=
  s.params.wellFormed = true
    ∧ (∀ i : Fin 4, SwitchOk s.params s.switches[i])
    ∧ (∀ j : Fin 4, EncoderOk s.params s.encoders[j])
    ∧ s.fault = s.faultCmd.isSome
    ∧ (s.fault = true → s.response = none)

/-- A line whose every register bit has the value of R33 for a window of length `n` and the initial level `level`. -/
abbrev LineAtReset (n : Nat) (level : Bool) (d : Debouncer) : Prop :=
  (∀ k : Fin 8, d.hist.getLsbD k = (decide (k.val < n) && level)) ∧ d.stable = level

/-- R33's values for every switch and encoder register, from the state's own parameters. -/
abbrev State.AtResetValues (s : State) : Prop :=
  (∀ i : Fin 4, LineAtReset s.params.nSw (s.params.initLevels.getLsbD i) s.switches[i].line ∧ s.switches[i].edge = .none)
    ∧ (∀ j : Fin 4, LineAtReset s.params.nEnc (s.params.initLevels.getLsbD (4 + j)) s.encoders[j].a
        ∧ LineAtReset s.params.nEnc (s.params.initLevels.getLsbD (8 + j)) s.encoders[j].b
        ∧ s.encoders[j].evt = .none)

/-- One line fed samples in order: its registers at the end, and the edge of every tick. -/
def lineRun (n : Nat) (d : Debouncer) : List Bool → Debouncer × List Edge
  | [] => (d, [])
  | r :: rs =>
    let res := sampleLine n d r
    let rest := lineRun n res.1 rs
    (rest.1, res.2 :: rest.2)

/-- The samples a line's window holds, oldest first. -/
def windowSamples (n : Nat) (d : Debouncer) : List Bool := ((List.range n).map fun k => d.hist.getLsbD k).reverse

/-- No `n` samples in a row have the value `v`. -/
def NoRunOf (n : Nat) (v : Bool) (rs : List Bool) : Prop := ¬ List.replicate n v <:+: rs

/-- Edges that alternate, the first one leaving the given level (R78). -/
def alternates : Bool → List Edge → Bool
  | _, [] => true
  | level, .none :: es => alternates level es
  | false, .rising :: es => alternates true es
  | true, .falling :: es => alternates false es
  | _, _ :: _ => false

/-- One encoder fed pairs of phase samples (A, B) in order: its registers at the end, and the event of every tick. -/
def encoderRun (p : Params) (enc : Encoder) : List (Bool × Bool) → Encoder × List Dir
  | [] => (enc, [])
  | ab :: rest =>
    let enc' := rotaryStep p enc ab.1 ab.2
    let res := encoderRun p enc' rest
    (res.1, enc'.evt :: res.2)

/-- Commands run one after another, up to the first one that does not answer a next state (R11). -/
def runCommands : List Instr → State → Host.Outcome State Fault Refusal
  | [], s => .next s
  | i :: is, s =>
    match exec i s with
    | .next t => runCommands is t
    | .fault r => .fault r
    | .refused r => .refused r

/-- The next state of an outcome, if it is one. -/
def nextOf : Host.Outcome State Fault Refusal → Option State
  | .next t => some t
  | .fault _ => none
  | .refused _ => none

end Sys2Proof.Machine
end

