-- ==== Sys2Proof/Certificates/Slice0/Obligations.lean ====
section
/-! DEFINITION. The statements for the provers. Each docstring names the rule of spec/ a statement formalises; "log n" is
notes/assumptions/n.md, named where a clause rests on the model's own choice. Everywhere, the response word a command returns
(R57) is read in `State.response` (log 3). -/

open Sys2Proof Sys2Proof.Machine

/-! ### Encoding -/

/-- R50, R52, R53, R59: decoding a word gives a command exactly when the word is that command's encoding, with every operand
at every value. So no bit of an encoding is dropped, and no command has a second spelling. -/
def Obligations.DecodeAndEncodeAgree : Prop :=
  ∀ (cmd : Word) (i : Instr), decode cmd = .ok i ↔ cmd = encode i

/-- Words written out from R52 and from spec/95_test_vectors.md section 5 (X-1 to X-12) decode to what they stand for. -/
def Obligations.SampleWordsDecode : Prop :=
  decode 0x10000000#32 = .ok .reset
    ∧ decode 0x20000FFF#32 = .ok (.poll 0xFFF#12)
    ∧ decode 0x20000021#32 = .ok (.poll 0x021#12)
    ∧ decode 0x30000000#32 = .ok .readLevels
    ∧ decode 0x40000000#32 = .ok .readEvents
    ∧ ∀ w ∈ [0x00000000#32, 0x10000001#32, 0x20001000#32, 0x2FFFF000#32, 0x30000001#32, 0x40000800#32, 0x50000000#32, 0xF0000000#32],
        decode w = .error (.illegalCommand w)

/-- R58: a word is illegal, and raises IllegalCommand, exactly under (a), (b) or (c), the fields read as numbers; every other
word is one of the four commands and runs as that command. The model's choices in it: the waiting word is the oldest entry of
the inbox (log 2), the raising step answers a next state (log 4) that records the word (log 5) and has no response (log 3). -/
def Obligations.IllegalWordsAreExactlyThose : Prop :=
  ∀ (s : State) (cmd : Word) (rest : List HostInput), s.fault = false → s.inbox = .command cmd :: rest →
    let op := cmd.toNat / 2 ^ 28
    let rsv := cmd.toNat / 2 ^ 12 % 2 ^ 16
    let payload := cmd.toNat % 2 ^ 12
    let illegal := (op = 0 ∨ 5 ≤ op) ∨ rsv ≠ 0 ∨ ((op = 1 ∨ op = 3 ∨ op = 4) ∧ payload ≠ 0)
    (illegal → step s = .next { s with inbox := rest, fault := true, faultCmd := some cmd, response := none })
      ∧ (¬ illegal → ∃ i, cmd = encode i ∧ step s = exec i { s with inbox := rest })

/-! ### Steps, the host's inputs and faults -/

/-- R43, R59: when the host's oldest input is a command word that decodes to `i`, the step is `exec i` on the state with that
input taken. That commands wait in an inbox is the model's choice (log 2). -/
def Obligations.StepRunsTheDecodedCommand : Prop :=
  ∀ (s : State) (cmd : Word) (rest : List HostInput) (i : Instr),
    s.inbox = .command cmd :: rest → decode cmd = .ok i → step s = exec i { s with inbox := rest }

/-- R61, R134: a port action is the command it stands for, `rst` wins over a simultaneous `poll`, no port action faults the
block, and the output ports are the read responses' bits. The model's choices in it: one port sampling is one host input, run as
its command, so that it sets the response too (log 8), taken from the inbox (log 2); and a sampling with neither `rst` nor `poll`
is a step that changes nothing else, keeping the response as it was (log 8, log 3). -/
def Obligations.PortActionsAreCommands : Prop :=
  (∀ (s : State) (raw : Lines) (poll : Bool) (rest : List HostInput), s.inbox = .ports raw poll true :: rest →
      step s = exec .reset { s with inbox := rest })
    ∧ (∀ (s : State) (raw : Lines) (rest : List HostInput), s.inbox = .ports raw true false :: rest →
      step s = exec (.poll raw) { s with inbox := rest })
    ∧ (∀ (s : State) (raw : Lines) (rest : List HostInput), s.fault = false → s.inbox = .ports raw false false :: rest →
      step s = .next { s with inbox := rest })
    ∧ (∀ (s : State) (raw : Lines) (poll rst : Bool) (rest : List HostInput), s.fault = false →
      s.inbox = .ports raw poll rst :: rest → ∃ t, step s = .next t ∧ t.fault = false)
    ∧ (∀ s : State, s.fault = false →
      (∃ w, exec .readLevels s = .next { s with response := some w } ∧ w = (levelPort s).setWidth 32)
        ∧ ∃ w, exec .readEvents s = .next { s with response := some w } ∧ w = (eventsPort s).setWidth 32)

/-- R151, and the model's choice of log 2: with no input waiting, a running block waits, and its state does not change. -/
def Obligations.EmptyInboxWaits : Prop :=
  ∀ s : State, s.fault = false → s.inbox = [] → step s = .next s

/-- R44, and the model's choice of log 2: every step takes the oldest waiting input and no other. -/
def Obligations.InputsAreTakenInOrder : Prop :=
  ∀ s t : State, step s = .next t → t.inbox = s.inbox.tail

/-- R102: an illegal word sets `fault` only, every debouncer and event register keeping its value; the rule's three corner
cases are illegal, and after its example 0x50000000 no command has a step. The model's choices in it: the word's own step answers
a next state and the step after it a fault, whatever waits (log 4, log 7); the inbox (log 2); the record of the word (log 5); no
response left (log 3). -/
def Obligations.IllegalWordSetsOnlyFault : Prop :=
  (∀ (s : State) (cmd : Word) (rest : List HostInput), s.fault = false → s.inbox = .command cmd :: rest → illegalWord cmd = true →
      step s = .next { s with inbox := rest, fault := true, faultCmd := some cmd, response := none })
    ∧ illegalWord 0x00000000#32 = true ∧ illegalWord 0x10000001#32 = true ∧ illegalWord 0x20001000#32 = true
    ∧ ∀ (s : State) (rest : List HostInput), s.fault = false → s.inbox = .command 0x50000000#32 :: rest →
        ∃ t, step s = .next t ∧ t.fault = true ∧ step t = .fault .illegalCommand ∧ ∀ i, exec i t = .fault .illegalCommand

/-- R27: `fault` is 0 at power-on, becomes 1 when a word raises IllegalCommand, is never cleared, and once it is 1 no further
command has a step. The model's choices in it: raising IllegalCommand is a step with a next state (log 4), and a faulted block's
step answers the fault whatever waits, an empty inbox and an idle port sampling included (log 7). -/
def Obligations.FaultIsStickyAndFinal : Prop :=
  (∀ p : Params, (State.powerOn p).fault = false)
    ∧ (∀ (s t : State) (cmd : Word) (rest : List HostInput), s.inbox = .command cmd :: rest → illegalWord cmd = true →
        step s = .next t → t.fault = true)
    ∧ (∀ s t : State, step s = .next t → t.fault = false → s.fault = false)
    ∧ (∀ s : State, s.fault = true → step s = .fault .illegalCommand ∧ ∀ i, exec i s = .fault .illegalCommand)

/-- R131: IllegalCommand, cause code 1, is the only exception: a step sets the fault bit only by an illegal command word, which it
records, and changes no other register. The model's choices in it: that step answers a next state, and the outcome fault is
answered by no other than a faulted block (log 4, log 7), a refusal by none; the inbox (log 2); the record of the word (log 5); no
response left (log 3). -/
def Obligations.IllegalCommandIsTheOnlyException : Prop :=
  Fault.causeCode .illegalCommand = 1
    ∧ (∀ (s : State) (r : Fault), step s = .fault r → s.fault = true ∧ r = .illegalCommand)
    ∧ (∀ s t : State, step s = .next t → t.fault = true →
        ∃ cmd rest, s.inbox = .command cmd :: rest ∧ illegalWord cmd = true
          ∧ t = { s with inbox := rest, fault := true, faultCmd := some cmd, response := none })
    ∧ (∀ (s : State) (r : Refusal), step s ≠ .refused r)

/-- R132: no legal command raises an exception: each of the four, with every sample, answers a next state that is not
faulted; parameters outside R7's legal values are refused when the block is built, and legal ones are not. -/
def Obligations.LegalCommandsNeverRaise : Prop :=
  (∀ (i : Instr) (s : State), s.fault = false → ∃ t, exec i s = .next t ∧ t.fault = false)
    ∧ ∀ p : Params,
        ((1 ≤ p.nSw ∧ p.nSw ≤ 8 ∧ 1 ≤ p.nEnc ∧ p.nEnc ≤ 8) → construct p = .next (State.powerOn p))
          ∧ (¬ (1 ≤ p.nSw ∧ p.nSw ≤ 8 ∧ 1 ≤ p.nEnc ∧ p.nEnc ≤ 8) → construct p = .refused .illegalParameters)

/-! ### Reset and parameters -/

/-- R33: after power-on or RESET every register has the rule's value, bit by bit, from INIT_LEVELS; with the default
parameters every window is all zeros, every stable level 0 and every event NONE. RESET never runs with `fault` = 1. -/
def Obligations.ResetGivesInitialLevels : Prop :=
  (∀ p : Params, (State.powerOn p).params = p ∧ (State.powerOn p).AtResetValues ∧ (State.powerOn p).fault = false)
    ∧ (∀ s : State, s.fault = false → ∃ t, exec .reset s = .next t ∧ t.AtResetValues ∧ t.fault = false)
    ∧ (∀ s : State, s.fault = true → exec .reset s = .fault .illegalCommand)
    ∧ (∀ i : Fin 4, State.reset.switches[i] = ⟨⟨0#8, false⟩, .none⟩ ∧ State.reset.encoders[i] = ⟨⟨0#8, false⟩, ⟨0#8, false⟩, .none⟩)

/-- R100, R101, R150: RESET completes and leaves the power-on state of the same parameters; its frame: the host's other
inputs (the model's inbox, log 2), the fault bit and its record (the model's field, log 5) stay, and the response is 0x00000000. -/
def Obligations.ResetIsPowerOnAgain : Prop :=
  ∀ s : State, s.fault = false →
    exec .reset s = .next { State.powerOn s.params with inbox := s.inbox, faultCmd := s.faultCmd, response := some 0x00000000#32 }

/-- R43: two RESETs leave the same state as one. -/
def Obligations.ResetIsIdempotent : Prop :=
  ∀ s : State, s.fault = false → ∃ t, exec .reset s = .next t ∧ exec .reset t = .next t

/-- R101, R7: no step, a RESET's among them, changes the window lengths, INIT_LEVELS or ENC_B_VIEW. That the
parameters are a field of State is the model's choice (log 1). -/
def Obligations.ParametersNeverChange : Prop :=
  (∀ s t : State, step s = .next t → t.params = s.params)
    ∧ ∀ s : State, s.fault = false → ∃ t, exec .reset s = .next t ∧ t.params = s.params

/-! ### The debounce primitive and one line -/

/-- R71: the new window drops the oldest sample and has the new one at bit 0; the level becomes 1 when all N samples are 1, 0
when all are 0, and else holds; the edge is the level's change. With the rule's example. -/
def Obligations.DebounceShiftsAndDecides : Prop :=
  (∀ (n : Nat) (h : BitVec n) (s r : Bool), 0 < n →
      let h' := (debounce n h s r).1
      let s' := (debounce n h s r).2.1
      let e := (debounce n h s r).2.2
      (∀ k < n, h'.getLsbD k = if k = 0 then r else h.getLsbD (k - 1))
        ∧ ((∀ k < n, h'.getLsbD k = true) → s' = true)
        ∧ ((∀ k < n, h'.getLsbD k = false) → s' = false)
        ∧ ((∃ k < n, h'.getLsbD k = true) → (∃ k < n, h'.getLsbD k = false) → s' = s)
        ∧ (e = .rising ↔ s = false ∧ s' = true)
        ∧ (e = .falling ↔ s = true ∧ s' = false)
        ∧ (e = .none ↔ s = s'))
    ∧ debounce 4 0b0111#4 false true = (0b1111#4, true, .rising)

/-- R72: the level changes only when the window is uniform; a window that agrees on the level already held leaves it and
reports NONE; the rule's example reports NONE four times, the window being all ones on the fourth. -/
def Obligations.StableLevelHoldsUnlessUniform : Prop :=
  (∀ (n : Nat) (h : BitVec n) (s r : Bool),
      (debounce n h s r).2.1 ≠ s → (debounce n h s r).1 = BitVec.allOnes n ∨ (debounce n h s r).1 = 0#n)
    ∧ (∀ (n : Nat) (h : BitVec n) (s r : Bool), 0 < n →
        (debounce n h s r).1 = (if s then BitVec.allOnes n else 0#n) →
          (debounce n h s r).2.1 = s ∧ (debounce n h s r).2.2 = .none)
    ∧ lineRun 4 ⟨0b1110#8, true⟩ [true, true, true, true] = (⟨0b1111#8, true⟩, [.none, .none, .none, .none])

/-- R73: on every tick a line's edge is RISING exactly when its stable level goes from 0 to 1, FALLING exactly when it goes
from 1 to 0, and NONE exactly when it does not change. -/
def Obligations.EdgeNamesTheChange : Prop :=
  ∀ (n : Nat) (d : Debouncer) (r : Bool),
    ((sampleLine n d r).2 = .rising ↔ d.stable = false ∧ (sampleLine n d r).1.stable = true)
      ∧ ((sampleLine n d r).2 = .falling ↔ d.stable = true ∧ (sampleLine n d r).1.stable = false)
      ∧ ((sampleLine n d r).2 = .none ↔ (sampleLine n d r).1.stable = d.stable)

/-- R74: with N = 1 the window and the level are the sample on every tick, and every change of the raw level is an edge on
the tick it is sampled. -/
def Obligations.WindowOfOneFollowsTheRawLevel : Prop :=
  ∀ (d : Debouncer) (r : Bool), LineOk 1 d →
    lineWindow 1 (sampleLine 1 d r).1 = BitVec.ofBool r
      ∧ (sampleLine 1 d r).1.stable = r
      ∧ ((sampleLine 1 d r).2 ≠ .none ↔ r ≠ d.hist.getLsbD 0)

/-- R76: while no N samples in a row, those in the window at the start included, differ from the stable level, the level does
not flip and no edge is reported. -/
def Obligations.ShortRunsNeverFlip : Prop :=
  ∀ (n : Nat) (d : Debouncer) (rs : List Bool), windowLengthOk n = true → LineOk n d →
    NoRunOf n (!d.stable) (windowSamples n d ++ rs) →
      (lineRun n d rs).1.stable = d.stable ∧ ∀ e ∈ (lineRun n d rs).2, e = .none

/-- R75: from power-on, a line that stays at its INIT_LEVELS value `v` reports no edge; samples that never hold the other value
N times in a row report none; and the N-th consecutive sample of the other value reports the first edge. -/
def Obligations.FirstEdgeComesOnTheNthSample : Prop :=
  ∀ p : Params, p.wellFormed = true →
    let claim := fun (n : Nat) (v : Bool) (d : Debouncer) =>
      (∀ k : Nat, (lineRun n d (List.replicate k v)).2 = List.replicate k .none)
        ∧ (∀ rs : List Bool, NoRunOf n (!v) rs → (lineRun n d rs).2 = List.replicate rs.length .none)
        ∧ (∀ pre : List Bool, NoRunOf n (!v) (pre ++ List.replicate (n - 1) (!v)) →
            (lineRun n d (pre ++ List.replicate n (!v))).2
              = List.replicate (pre.length + (n - 1)) .none ++ [if v then .falling else .rising])
    (∀ i : Fin 4, claim p.nSw (p.initLevels.getLsbD i) (State.powerOn p).switches[i].line)
      ∧ (∀ j : Fin 4, claim p.nEnc (p.initLevels.getLsbD (4 + j)) (State.powerOn p).encoders[j].a
          ∧ claim p.nEnc (p.initLevels.getLsbD (8 + j)) (State.powerOn p).encoders[j].b)

/-- R77, R160: a sample back at the held level restarts the count: after it the edge comes on the N-th sample of the other
level, and not before. -/
def Obligations.BounceRestartsTheCount : Prop :=
  ∀ (n : Nat) (d : Debouncer), windowLengthOk n = true → LineOk n d →
    (lineRun n d (d.stable :: List.replicate n (!d.stable))).2
      = List.replicate n .none ++ [if d.stable then .falling else .rising]

/-- R78: the edges of one line alternate; the first one after power-on is RISING if the line's INIT_LEVELS bit is 0 and FALLING
if it is 1. -/
def Obligations.EdgesOfALineAlternate : Prop :=
  (∀ (n : Nat) (d : Debouncer) (rs : List Bool), alternates d.stable (lineRun n d rs).2 = true)
    ∧ ∀ (p : Params) (i : Fin 4) (rs : List Bool),
        alternates (p.initLevels.getLsbD i) (lineRun p.nSw (State.powerOn p).switches[i].line rs).2 = true
          ∧ alternates (p.initLevels.getLsbD (4 + i)) (lineRun p.nEnc (State.powerOn p).encoders[i].a rs).2 = true
          ∧ alternates (p.initLevels.getLsbD (8 + i)) (lineRun p.nEnc (State.powerOn p).encoders[i].b rs).2 = true

/-! ### POLL -/

/-- R79: POLL completes and gives every switch the window, the level and the edge of `Debounce(N_SW, …)` on its own registers
and its own sample bit. -/
def Obligations.PollStepsEverySwitch : Prop :=
  ∀ (s : State) (x : Lines), s.fault = false → ∃ t, exec (.poll x) s = .next t ∧ ∀ i : Fin 4,
    let res := debounce s.params.nSw (s.switches[i].line.hist.setWidth s.params.nSw) s.switches[i].line.stable (x.getLsbD i)
    t.switches[i].line.hist = res.1.setWidth 8 ∧ t.switches[i].line.stable = res.2.1 ∧ t.switches[i].edge = res.2.2

/-- R86: POLL completes and gives every encoder the windows and levels of `Debounce(N_ENC, …)` on its own phase lines, and CW
or CCW by phase B's viewed level exactly when phase A has a rising edge, else NONE. -/
def Obligations.PollStepsEveryEncoder : Prop :=
  ∀ (s : State) (x : Lines), s.fault = false → ∃ t, exec (.poll x) s = .next t ∧ ∀ j : Fin 4,
    let n := s.params.nEnc
    let ra := debounce n (s.encoders[j].a.hist.setWidth n) s.encoders[j].a.stable (x.getLsbD (4 + j))
    let rb := debounce n (s.encoders[j].b.hist.setWidth n) s.encoders[j].b.stable (x.getLsbD (8 + j))
    let bv := if s.params.encBView = .after then rb.2.1 else s.encoders[j].b.stable
    t.encoders[j].a.hist = ra.1.setWidth 8 ∧ t.encoders[j].a.stable = ra.2.1
      ∧ t.encoders[j].b.hist = rb.1.setWidth 8 ∧ t.encoders[j].b.stable = rb.2.1
      ∧ t.encoders[j].evt = if ra.2.2 = .rising then (if bv = false then .cw else .ccw) else .none

/-- R111: the POLL response holds the codes of the events just written in its fields and 0 above them, and a READ_EVENTS
straight after returns the same word. -/
def Obligations.PollRespondsWithTheNewEvents : Prop :=
  ∀ (s : State) (x : Lines), s.fault = false → ∃ t w, exec (.poll x) s = .next t ∧ t.response = some w
    ∧ (∀ i : Fin 4, w.toNat / 2 ^ (2 * i.val) % 4 = (t.switches[i].edge.code).toNat)
    ∧ (∀ j : Fin 4, w.toNat / 2 ^ (8 + 2 * j.val) % 4 = (t.encoders[j].evt.code).toNat)
    ∧ w.toNat < 2 ^ 16
    ∧ exec .readEvents t = .next { t with response := some w }

/-- R35, R110: POLL's frame: it writes the switch and encoder registers and the response, and nothing else: the parameters (log 1),
the fault bit and its record (log 5) and the waiting inputs (log 2) stay. -/
def Obligations.PollChangesOnlyLinesAndEvents : Prop :=
  ∀ (s : State) (x : Lines), s.fault = false → ∃ t, exec (.poll x) s = .next t
    ∧ t.params = s.params ∧ t.fault = s.fault ∧ t.faultCmd = s.faultCmd ∧ t.inbox = s.inbox

/-- R113, read as log 13 says (R25: every POLL overwrites the events): a POLL whose sample equals every stable level, all
windows being uniform, changes no window and no level, reports 0x00000000 and leaves every event NONE. -/
def Obligations.PollOfTheHeldLevelsChangesNoLine : Prop :=
  ∀ (s : State) (x : Lines), s.fault = false → s.Inv →
    (∀ i : Fin 4, (lineWindow s.params.nSw s.switches[i].line = BitVec.allOnes s.params.nSw
        ∨ lineWindow s.params.nSw s.switches[i].line = 0#s.params.nSw) ∧ x.getLsbD i = s.switches[i].line.stable) →
    (∀ j : Fin 4, (lineWindow s.params.nEnc s.encoders[j].a = BitVec.allOnes s.params.nEnc
          ∨ lineWindow s.params.nEnc s.encoders[j].a = 0#s.params.nEnc) ∧ x.getLsbD (4 + j) = s.encoders[j].a.stable
        ∧ (lineWindow s.params.nEnc s.encoders[j].b = BitVec.allOnes s.params.nEnc
          ∨ lineWindow s.params.nEnc s.encoders[j].b = 0#s.params.nEnc) ∧ x.getLsbD (8 + j) = s.encoders[j].b.stable) →
    ∃ t, exec (.poll x) s = .next t ∧ t.response = some 0x00000000#32
      ∧ (∀ i : Fin 4, t.switches[i].line = s.switches[i].line ∧ t.switches[i].edge = .none)
      ∧ (∀ j : Fin 4, t.encoders[j].a = s.encoders[j].a ∧ t.encoders[j].b = s.encoders[j].b ∧ t.encoders[j].evt = .none)

/-- R88: an encoder's event is other than NONE exactly when phase A's stable level rises on the tick. -/
def Obligations.OnlyARisingPhaseAEmits : Prop :=
  ∀ (s t : State) (x : Lines) (j : Fin 4), exec (.poll x) s = .next t →
    (t.encoders[j].evt ≠ .none ↔ s.encoders[j].a.stable = false ∧ t.encoders[j].a.stable = true)

/-- R90: when phase A's level rises and phase B's changes on the same tick, the event follows B's new level under AFTER and
B's old level under BEFORE; with the rule's example, two POLLs of (1,1) from reset. -/
def Obligations.SimultaneousRiseFollowsTheView : Prop :=
  (∀ (s t : State) (x : Lines) (j : Fin 4), exec (.poll x) s = .next t →
      s.encoders[j].a.stable = false → t.encoders[j].a.stable = true → t.encoders[j].b.stable ≠ s.encoders[j].b.stable →
        (s.params.encBView = .after → t.encoders[j].evt = if t.encoders[j].b.stable then .ccw else .cw)
          ∧ (s.params.encBView = .before → t.encoders[j].evt = if s.encoders[j].b.stable then .ccw else .cw))
    ∧ ∀ v : BView, ∃ t t', exec (.poll 0x110#12) (State.powerOn { Params.default with encBView := v }) = .next t
        ∧ exec (.poll 0x110#12) t = .next t' ∧ t.encoders[(0 : Fin 4)].evt = .none
        ∧ t'.encoders[(0 : Fin 4)].evt = match v with | .after => .ccw | .before => .cw

/-- R87: the two settings of ENC_B_VIEW give an encoder different events only on a tick where phase A rises and phase B's
stable level changes. -/
def Obligations.ViewsDifferOnlyInThatCorner : Prop :=
  ∀ (s t t' : State) (x : Lines) (j : Fin 4),
    exec (.poll x) { s with params := { s.params with encBView := .after } } = .next t →
    exec (.poll x) { s with params := { s.params with encBView := .before } } = .next t' →
      t.encoders[j].a = t'.encoders[j].a ∧ t.encoders[j].b = t'.encoders[j].b
        ∧ (t.encoders[j].evt ≠ t'.encoders[j].evt ↔
            (s.encoders[j].a.stable = false ∧ t.encoders[j].a.stable = true) ∧ t.encoders[j].b.stable ≠ s.encoders[j].b.stable)

/-- R91: with N_ENC = 1 each phase's level is its latest sample, and under AFTER a CW is reported exactly on the POLLs where
`ra` is 1, the previous `ra` was 0 and `rb` is 0. -/
def Obligations.EncoderWindowOfOne : Prop :=
  ∀ (s : State) (x : Lines), s.fault = false → s.Inv → s.params.nEnc = 1 → ∃ t, exec (.poll x) s = .next t ∧ ∀ j : Fin 4,
    t.encoders[j].a.stable = x.getLsbD (4 + j) ∧ t.encoders[j].b.stable = x.getLsbD (8 + j)
      ∧ (s.params.encBView = .after →
          (t.encoders[j].evt = .cw ↔
            x.getLsbD (4 + j) = true ∧ s.encoders[j].a.hist.getLsbD 0 = false ∧ x.getLsbD (8 + j) = false))

/-- R92: one full quadrature cycle, every state held for at least N_ENC ticks, gives exactly one event, CW when phase A leads
and CCW when phase B leads, whatever the view, and brings the encoder back to where it started. -/
def Obligations.OneEventPerQuadratureCycle : Prop :=
  ∀ (p : Params) (k1 k2 k3 k4 : Nat) (e : Dir), p.wellFormed = true →
    p.nEnc ≤ k1 → p.nEnc ≤ k2 → p.nEnc ≤ k3 → p.nEnc ≤ k4 →
      let low := initialLine p.nEnc false
      let held := fun (k : Nat) (a b : Bool) => List.replicate k (a, b)
      let aLeads := encoderRun p ⟨low, low, e⟩ (held k1 true false ++ held k2 true true ++ held k3 false true ++ held k4 false false)
      let bLeads := encoderRun p ⟨low, low, e⟩ (held k1 false true ++ held k2 true true ++ held k3 true false ++ held k4 false false)
      aLeads.2.filter (· ≠ .none) = [.cw] ∧ aLeads.1 = ⟨low, low, .none⟩
        ∧ bLeads.2.filter (· ≠ .none) = [.ccw] ∧ bLeads.1 = ⟨low, low, .none⟩

/-- R79, R94, R112, R115: what POLL gives a switch depends only on its own line and sample bit, and what it gives an encoder
only on its own two lines and bits: not on another unit, and not on any event of the tick before. -/
def Obligations.UnitsDoNotInterfere : Prop :=
  ∀ (s s' t t' : State) (x x' : Lines), s.params = s'.params → exec (.poll x) s = .next t → exec (.poll x') s' = .next t' →
    (∀ i : Fin 4, s.switches[i].line = s'.switches[i].line → x.getLsbD i = x'.getLsbD i → t.switches[i] = t'.switches[i])
      ∧ (∀ j : Fin 4, s.encoders[j].a = s'.encoders[j].a → s.encoders[j].b = s'.encoders[j].b →
          x.getLsbD (4 + j) = x'.getLsbD (4 + j) → x.getLsbD (8 + j) = x'.getLsbD (8 + j) → t.encoders[j] = t'.encoders[j])

/-- R44, R70, R110: any sequence of POLLs completes, and leaves every switch line as that line's own run over its own samples
leaves it, and every encoder as that encoder's own run. -/
def Obligations.PollSequencesRunEachLine : Prop :=
  ∀ (s : State) (xs : List Lines), s.fault = false →
    ∃ t, runCommands (xs.map .poll) s = .next t
      ∧ (∀ i : Fin 4, t.switches[i].line = (lineRun s.params.nSw s.switches[i].line (xs.map fun x => x.getLsbD i)).1)
      ∧ (∀ j : Fin 4, t.encoders[j]
          = (encoderRun s.params s.encoders[j] (xs.map fun x => (x.getLsbD (4 + j), x.getLsbD (8 + j)))).1)

/-- R76 for the machine: POLLs that never give a switch N_SW samples in a row that differ from its level, the samples in its
window included, leave that level as it is and its edge NONE. -/
def Obligations.BouncingSwitchKeepsItsLevel : Prop :=
  ∀ (s t : State) (x : Lines) (xs : List Lines) (i : Fin 4), s.Inv →
    NoRunOf s.params.nSw (!s.switches[i].line.stable)
      (windowSamples s.params.nSw s.switches[i].line ++ (x :: xs).map fun y => y.getLsbD i) →
    runCommands ((x :: xs).map .poll) s = .next t →
      t.switches[i].line.stable = s.switches[i].line.stable ∧ t.switches[i].edge = .none

/-! ### Reads -/

/-- R120: READ_LEVELS completes, answers the stable levels in the layout of R54 with zeros above, and changes nothing but the
response. -/
def Obligations.ReadLevelsReturnsTheStableLevels : Prop :=
  ∀ s : State, s.fault = false → ∃ w, exec .readLevels s = .next { s with response := some w }
    ∧ (∀ i : Fin 4, w.getLsbD i = s.switches[i].line.stable)
    ∧ (∀ j : Fin 4, w.getLsbD (4 + j) = s.encoders[j].a.stable ∧ w.getLsbD (8 + j) = s.encoders[j].b.stable)
    ∧ w.toNat < 2 ^ 12

/-- R121: right after RESET, READ_LEVELS returns INIT_LEVELS zero-extended, and 0x00000000 with the defaults. -/
def Obligations.ReadLevelsAfterReset : Prop :=
  (∀ s : State, s.fault = false → ∃ t, exec .reset s = .next t
      ∧ exec .readLevels t = .next { t with response := some (s.params.initLevels.setWidth 32) })
    ∧ ∀ s : State, s.fault = false → s.params = Params.default → ∃ t, exec .reset s = .next t
      ∧ exec .readLevels t = .next { t with response := some 0x00000000#32 }

/-- R122: READ_EVENTS completes, answers the codes of the current events in the layout of R55, and changes nothing but the
response: the events stay; straight after a RESET it answers 0x00000000. -/
def Obligations.ReadEventsReturnsTheEvents : Prop :=
  (∀ s : State, s.fault = false → ∃ w, exec .readEvents s = .next { s with response := some w }
      ∧ (∀ i : Fin 4, w.toNat / 2 ^ (2 * i.val) % 4 = (s.switches[i].edge.code).toNat)
      ∧ (∀ j : Fin 4, w.toNat / 2 ^ (8 + 2 * j.val) % 4 = (s.encoders[j].evt.code).toNat)
      ∧ w.toNat < 2 ^ 16)
    ∧ ∀ s : State, s.fault = false → ∃ t, exec .reset s = .next t
        ∧ exec .readEvents t = .next { t with response := some 0x00000000#32 }

/-- R43: a read repeated returns the same word and leaves the same state. -/
def Obligations.ReadsAreIdempotent : Prop :=
  ∀ s t : State,
    (exec .readLevels s = .next t → exec .readLevels t = .next t) ∧ (exec .readEvents s = .next t → exec .readEvents t = .next t)

/-- R56: the 2-bit codes; code 11 stands in no field of any event word and reads back as no event. -/
def Obligations.EventCodeElevenNeverAppears : Prop :=
  Edge.code .none = 0b00#2 ∧ Edge.code .rising = 0b01#2 ∧ Edge.code .falling = 0b10#2
    ∧ Dir.code .none = 0b00#2 ∧ Dir.code .cw = 0b01#2 ∧ Dir.code .ccw = 0b10#2
    ∧ Edge.ofCode 0b11#2 = none ∧ Dir.ofCode 0b11#2 = none
    ∧ (∀ (s t : State) (w : Word), exec .readEvents s = .next t ∨ (∃ x, exec (.poll x) s = .next t) → t.response = some w →
        ∀ k < 8, w.toNat / 2 ^ (2 * k) % 4 ≠ 3)

/-- R55, R56: every event can be read back from the event word. -/
def Obligations.EventWordReadsBack : Prop :=
  ∀ (s : State) (i : Fin 4),
    Edge.ofCode (eventWordEdge (eventWord s) i) = some s.switches[i].edge
      ∧ Dir.ofCode (eventWordDir (eventWord s) i) = some s.encoders[i].evt

/-! ### Whole-machine rules -/

/-- R34, R7: from every good state a step that answers a next state leads to a good state: legal parameters, every window
consistent with its level, every event consistent with the lines that gave it (R71, R86). The model's choices in `State.Inv`: the
parameters are a field of State (log 1, log 9); nothing stands in the 8-bit registers above a window (log 6); a word is recorded
exactly when the block is faulted, none before (log 5); and a faulted block, which a next state may be (log 4), has no response
(log 3). -/
def Obligations.StepKeepsGoodStates : Prop :=
  ∀ s t : State, s.Inv → step s = .next t → t.Inv

/-- R33, R34: a block built with legal parameters is in a good state at power-on, the default one after reset included.
The model's choices in it: no word is recorded at power-on, a reset value the spec does not give (log 5); the windows stand in 8-bit
registers with zeros above them (log 6); the parameters are a field of State (log 1). -/
def Obligations.PowerOnIsGood : Prop :=
  (∀ p : Params, p.wellFormed = true → (State.powerOn p).Inv) ∧ State.reset.Inv

/-- R28, R35, R156: only POLL and RESET write the switch and encoder registers: events and levels are held through every other
step. The model's choices in it: a command reaches the block as an input of the inbox (log 2), a word or a port sampling (log 8). -/
def Obligations.OnlyPollAndResetWriteRegisters : Prop :=
  ∀ s t : State, step s = .next t → (t.switches ≠ s.switches ∨ t.encoders ≠ s.encoders) →
    ∃ input rest, s.inbox = input :: rest
      ∧ ((∃ x, inputRequest input = .run (.poll x)) ∨ inputRequest input = .run .reset)

/-! ### Textual form -/

/-- R60: the text of every command, with POLL's operand in hexadecimal or in binary, is read as that command. -/
def Obligations.TextOfACommandParses : Prop :=
  (∀ i : Instr, parseLine (commandText i) = some i) ∧ ∀ x : Lines, parseLine (pollBinaryText x) = some (.poll x)

/-- R60: POLL's field form is read as `s = sw | (a << 4) | (b << 8)`, and the rule's example assembles to 0x20000021. -/
def Obligations.FieldFormIsPoll : Prop :=
  (∀ sw a b : BitVec 4, ∃ x : Lines, parseLine (pollFieldText sw a b) = some (.poll x)
      ∧ x.toNat = sw.toNat + a.toNat * 2 ^ 4 + b.toNat * 2 ^ 8)
    ∧ assembleLine (pollFieldText 0b0001#4 0b0010#4 0b0000#4) = some 0x20000021#32
end

