-- ==== Sys2Proof/Laws/Debounce.lean ====
section
/-! SUPPORT. The debounce primitive bit by bit, and one line's registers after a sample. -/

namespace Sys2Proof.Machine

/-- The new window holds the new sample at bit 0 and the old window's bits one place up (R71). -/
theorem debounce_window_getLsbD {n : Nat} (h : BitVec n) (s r : Bool) {k : Nat} (hk : k < n) :
    (debounce n h s r).1.getLsbD k = if k = 0 then r else h.getLsbD (k - 1) := by
  cases k with
  | zero => simp [debounce, hk]
  | succ k => simp [debounce, hk, BitVec.getLsbD_eq_getElem (Nat.lt_of_succ_lt hk)]

/-- A window is `ones(N)` when every sample in it is 1. -/
theorem eq_allOnes_iff {n : Nat} (h : BitVec n) : h = BitVec.allOnes n ↔ ∀ k < n, h.getLsbD k = true := by
  refine ⟨?_, fun hb => BitVec.eq_of_getLsbD_eq fun k hk => ?_⟩
  · rintro rfl k hk
    simp [hk]
  · rw [hb k hk]
    simp [hk]

/-- A window is 0 when every sample in it is 0. -/
theorem eq_zero_iff {n : Nat} (h : BitVec n) : h = 0#n ↔ ∀ k < n, h.getLsbD k = false := by
  refine ⟨?_, fun hb => BitVec.eq_of_getLsbD_eq fun k hk => ?_⟩
  · rintro rfl k _
    simp
  · rw [hb k hk]
    simp

theorem debounce_stable {n : Nat} (h : BitVec n) (s r : Bool) :
    (debounce n h s r).2.1
      = if (debounce n h s r).1 = BitVec.allOnes n then true else if (debounce n h s r).1 = 0#n then false else s := rfl

theorem debounce_edge {n : Nat} (h : BitVec n) (s r : Bool) :
    (debounce n h s r).2.2 = edgeOf s (debounce n h s r).2.1 := rfl

@[simp] theorem edgeOf_eq_rising_iff {old new : Bool} : edgeOf old new = .rising ↔ old = false ∧ new = true := by
  cases old <;> cases new <;> simp [edgeOf]

@[simp] theorem edgeOf_eq_falling_iff {old new : Bool} : edgeOf old new = .falling ↔ old = true ∧ new = false := by
  cases old <;> cases new <;> simp [edgeOf]

@[simp] theorem edgeOf_eq_none_iff {old new : Bool} : edgeOf old new = .none ↔ old = new := by
  cases old <;> cases new <;> simp [edgeOf]

@[simp] theorem edgeOf_self (v : Bool) : edgeOf v v = .none := edgeOf_eq_none_iff.mpr rfl

theorem lineWindow_getLsbD {n k : Nat} (d : Debouncer) (hk : k < n) : (lineWindow n d).getLsbD k = d.hist.getLsbD k := by
  simp [lineWindow, hk]

/-- The register keeps the whole window when the window's length is legal. -/
theorem lineWindow_sampleLine {n : Nat} (hn : n ≤ 8) (d : Debouncer) (r : Bool) :
    lineWindow n (sampleLine n d r).1 = (debounce n (lineWindow n d) d.stable r).1 := by
  apply BitVec.eq_of_getLsbD_eq
  intro k hk
  simp [lineWindow, sampleLine, hk, Nat.lt_of_lt_of_le hk hn]

theorem sampleLine_stable {n : Nat} (d : Debouncer) (r : Bool) :
    (sampleLine n d r).1.stable = (debounce n (lineWindow n d) d.stable r).2.1 := rfl

theorem sampleLine_edge {n : Nat} (d : Debouncer) (r : Bool) :
    (sampleLine n d r).2 = edgeOf d.stable (sampleLine n d r).1.stable := rfl

/-- A sample leaves nothing above the window's `n` bits in the register. -/
theorem sampleLine_hist_lt (n : Nat) (d : Debouncer) (r : Bool) : (sampleLine n d r).1.hist.toNat < 2 ^ n := by
  have h : (sampleLine n d r).1.hist.toNat ≤ (debounce n (lineWindow n d) d.stable r).1.toNat := by
    simp only [sampleLine, BitVec.toNat_setWidth]
    exact Nat.mod_le _ _
  exact Nat.lt_of_le_of_lt h (BitVec.isLt _)

/-- A uniform window reads back as all ones or all zeros. -/
theorem lineWindow_initialLine {n : Nat} (hn : n ≤ 8) (v : Bool) :
    lineWindow n (initialLine n v) = if v then BitVec.allOnes n else 0#n := by
  apply BitVec.eq_of_getLsbD_eq
  intro k hk
  cases v <;> simp [lineWindow, initialLine, uniformWindow, hk, Nat.lt_of_lt_of_le hk hn]

end Sys2Proof.Machine
end

