-- ==== Sys2Proof/Laws/State.lean ====
section
/-! SUPPORT. One lemma per field per update of the state, and the fields of a block at power-on. -/

namespace Sys2Proof.Machine

@[simp] theorem State.setUnits_params (sw : Vector Switch 4) (enc : Vector Encoder 4) (s : State) : (s.setUnits sw enc).params = s.params := rfl
@[simp] theorem State.setUnits_switches (sw : Vector Switch 4) (enc : Vector Encoder 4) (s : State) : (s.setUnits sw enc).switches = sw := rfl
@[simp] theorem State.setUnits_encoders (sw : Vector Switch 4) (enc : Vector Encoder 4) (s : State) : (s.setUnits sw enc).encoders = enc := rfl
@[simp] theorem State.setUnits_fault (sw : Vector Switch 4) (enc : Vector Encoder 4) (s : State) : (s.setUnits sw enc).fault = s.fault := rfl
@[simp] theorem State.setUnits_faultCmd (sw : Vector Switch 4) (enc : Vector Encoder 4) (s : State) : (s.setUnits sw enc).faultCmd = s.faultCmd := rfl
@[simp] theorem State.setUnits_inbox (sw : Vector Switch 4) (enc : Vector Encoder 4) (s : State) : (s.setUnits sw enc).inbox = s.inbox := rfl
@[simp] theorem State.setUnits_response (sw : Vector Switch 4) (enc : Vector Encoder 4) (s : State) : (s.setUnits sw enc).response = s.response := rfl

@[simp] theorem State.setResponse_params (w : Word) (s : State) : (s.setResponse w).params = s.params := rfl
@[simp] theorem State.setResponse_switches (w : Word) (s : State) : (s.setResponse w).switches = s.switches := rfl
@[simp] theorem State.setResponse_encoders (w : Word) (s : State) : (s.setResponse w).encoders = s.encoders := rfl
@[simp] theorem State.setResponse_fault (w : Word) (s : State) : (s.setResponse w).fault = s.fault := rfl
@[simp] theorem State.setResponse_faultCmd (w : Word) (s : State) : (s.setResponse w).faultCmd = s.faultCmd := rfl
@[simp] theorem State.setResponse_inbox (w : Word) (s : State) : (s.setResponse w).inbox = s.inbox := rfl
@[simp] theorem State.setResponse_response (w : Word) (s : State) : (s.setResponse w).response = some w := rfl

@[simp] theorem State.setInbox_params (l : List HostInput) (s : State) : (s.setInbox l).params = s.params := rfl
@[simp] theorem State.setInbox_switches (l : List HostInput) (s : State) : (s.setInbox l).switches = s.switches := rfl
@[simp] theorem State.setInbox_encoders (l : List HostInput) (s : State) : (s.setInbox l).encoders = s.encoders := rfl
@[simp] theorem State.setInbox_fault (l : List HostInput) (s : State) : (s.setInbox l).fault = s.fault := rfl
@[simp] theorem State.setInbox_faultCmd (l : List HostInput) (s : State) : (s.setInbox l).faultCmd = s.faultCmd := rfl
@[simp] theorem State.setInbox_inbox (l : List HostInput) (s : State) : (s.setInbox l).inbox = l := rfl
@[simp] theorem State.setInbox_response (l : List HostInput) (s : State) : (s.setInbox l).response = s.response := rfl

@[simp] theorem State.setFault_params (cmd : Word) (s : State) : (s.setFault cmd).params = s.params := rfl
@[simp] theorem State.setFault_switches (cmd : Word) (s : State) : (s.setFault cmd).switches = s.switches := rfl
@[simp] theorem State.setFault_encoders (cmd : Word) (s : State) : (s.setFault cmd).encoders = s.encoders := rfl
@[simp] theorem State.setFault_fault (cmd : Word) (s : State) : (s.setFault cmd).fault = true := rfl
@[simp] theorem State.setFault_faultCmd (cmd : Word) (s : State) : (s.setFault cmd).faultCmd = some cmd := rfl
@[simp] theorem State.setFault_inbox (cmd : Word) (s : State) : (s.setFault cmd).inbox = s.inbox := rfl
@[simp] theorem State.setFault_response (cmd : Word) (s : State) : (s.setFault cmd).response = none := rfl

@[simp] theorem State.powerOn_params (p : Params) : (State.powerOn p).params = p := rfl
@[simp] theorem State.powerOn_switches (p : Params) : (State.powerOn p).switches = initialSwitches p := rfl
@[simp] theorem State.powerOn_encoders (p : Params) : (State.powerOn p).encoders = initialEncoders p := rfl
@[simp] theorem State.powerOn_fault (p : Params) : (State.powerOn p).fault = false := rfl
@[simp] theorem State.powerOn_faultCmd (p : Params) : (State.powerOn p).faultCmd = none := rfl
@[simp] theorem State.powerOn_inbox (p : Params) : (State.powerOn p).inbox = [] := rfl
@[simp] theorem State.powerOn_response (p : Params) : (State.powerOn p).response = none := rfl

@[simp] theorem initialSwitches_getElem (p : Params) (k : Nat) (hk : k < 4) :
    (initialSwitches p)[k] = ⟨initialLine p.nSw (switchBit p.initLevels ⟨k, hk⟩), .none⟩ := by
  simp [initialSwitches]

@[simp] theorem initialEncoders_getElem (p : Params) (k : Nat) (hk : k < 4) :
    (initialEncoders p)[k]
      = ⟨initialLine p.nEnc (phaseABit p.initLevels ⟨k, hk⟩), initialLine p.nEnc (phaseBBit p.initLevels ⟨k, hk⟩), .none⟩ := by
  simp [initialEncoders]

theorem uniformWindow_getLsbD (n : Nat) (v : Bool) (k : Nat) :
    (uniformWindow n v).getLsbD k = (decide (k < 8) && decide (k < n) && v) := by
  cases v <;> simp [uniformWindow]

@[simp] theorem uniformWindow_getElem (n : Nat) (v : Bool) (k : Nat) (hk : k < 8) :
    (uniformWindow n v)[k] = (decide (k < n) && v) := by
  rw [← BitVec.getLsbD_eq_getElem, uniformWindow_getLsbD]
  simp [hk]

@[simp] theorem initialLine_hist (n : Nat) (v : Bool) : (initialLine n v).hist = uniformWindow n v := rfl

@[simp] theorem initialLine_stable (n : Nat) (v : Bool) : (initialLine n v).stable = v := rfl

end Sys2Proof.Machine
end

