-- ==== Sys2Proof/Laws/Ops.lean ====
section
/-! SUPPORT. What each shared operation, a command and a step can answer, said once. -/

namespace Sys2Proof.Machine

theorem ifRunning_eq_next_iff {s t u : State} : ifRunning s t = .next u ↔ s.fault = false ∧ t = u := by
  cases h : s.fault <;> simp [ifRunning, h]

theorem ifRunning_of_running {s : State} (t : State) (h : s.fault = false) : ifRunning s t = .next t := by
  simp [ifRunning, h]

theorem ifRunning_of_faulted {s : State} (t : State) (h : s.fault = true) : ifRunning s t = .fault .illegalCommand := by
  simp [ifRunning, h]

theorem complete_of_running {s : State} (effect : State → State) (answer : State → Word) (h : s.fault = false) :
    complete effect answer s = .next ((effect s).setResponse (answer (effect s))) :=
  ifRunning_of_running _ h

theorem complete_of_faulted {s : State} (effect : State → State) (answer : State → Word) (h : s.fault = true) :
    complete effect answer s = .fault .illegalCommand :=
  ifRunning_of_faulted _ h

theorem complete_eq_next_iff {effect : State → State} {answer : State → Word} {s t : State} :
    complete effect answer s = .next t ↔ s.fault = false ∧ (effect s).setResponse (answer (effect s)) = t :=
  ifRunning_eq_next_iff

theorem raiseIllegalCommand_eq_next_iff {cmd : Word} {s t : State} :
    raiseIllegalCommand cmd s = .next t ↔ s.fault = false ∧ s.setFault cmd = t :=
  ifRunning_eq_next_iff

theorem wait_eq_next_iff {s t : State} : wait s = .next t ↔ s.fault = false ∧ s = t :=
  ifRunning_eq_next_iff

theorem takeRequest_of_nil {s : State} (h : s.inbox = []) : takeRequest s = (.nothing, s) := by
  simp [takeRequest, h]

theorem takeRequest_of_cons {s : State} {input : HostInput} {rest : List HostInput} (h : s.inbox = input :: rest) :
    takeRequest s = (inputRequest input, s.setInbox rest) := by
  simp [takeRequest, h]

@[simp] theorem exec_reset (s : State) : exec .reset s = complete resetUnits (fun _ => 0x00000000#32) s := rfl
@[simp] theorem exec_poll (x : Lines) (s : State) : exec (.poll x) s = complete (pollUnits x) eventWord s := rfl
@[simp] theorem exec_readLevels (s : State) : exec .readLevels s = complete id levelWord s := rfl
@[simp] theorem exec_readEvents (s : State) : exec .readEvents s = complete id eventWord s := rfl

/-- Everything a command that answers a next state can have done. -/
theorem exec_cases {i : Instr} {s t : State} (h : exec i s = .next t) :
    s.fault = false ∧
      ((i = .reset ∧ t = (resetUnits s).setResponse 0x00000000#32)
        ∨ (∃ x, i = .poll x ∧ t = (pollUnits x s).setResponse (eventWord (pollUnits x s)))
        ∨ (i = .readLevels ∧ t = s.setResponse (levelWord s))
        ∨ (i = .readEvents ∧ t = s.setResponse (eventWord s))) := by
  cases i with
  | reset => obtain ⟨hf, rfl⟩ := complete_eq_next_iff.mp (exec_reset s ▸ h); exact ⟨hf, .inl ⟨rfl, rfl⟩⟩
  | poll x => obtain ⟨hf, rfl⟩ := complete_eq_next_iff.mp (exec_poll x s ▸ h); exact ⟨hf, .inr (.inl ⟨x, rfl, rfl⟩)⟩
  | readLevels => obtain ⟨hf, rfl⟩ := complete_eq_next_iff.mp (exec_readLevels s ▸ h); exact ⟨hf, .inr (.inr (.inl ⟨rfl, rfl⟩))⟩
  | readEvents => obtain ⟨hf, rfl⟩ := complete_eq_next_iff.mp (exec_readEvents s ▸ h); exact ⟨hf, .inr (.inr (.inr ⟨rfl, rfl⟩))⟩

/-- What a step does with the oldest input. -/
theorem step_of_cons {s : State} {input : HostInput} {rest : List HostInput} (h : s.inbox = input :: rest) :
    step s = match inputRequest input with
      | .run i => exec i (s.setInbox rest)
      | .illegal cmd => raiseIllegalCommand cmd (s.setInbox rest)
      | .nothing => wait (s.setInbox rest) := by
  unfold step
  rw [takeRequest_of_cons h]
  cases inputRequest input <;> rfl

/-- Everything a step that answers a next state can have done. -/
theorem step_cases {s t : State} (h : step s = .next t) :
    s.fault = false ∧
      ((s.inbox = [] ∧ t = s)
        ∨ ∃ input rest, s.inbox = input :: rest ∧
            ((∃ i, inputRequest input = .run i ∧ exec i (s.setInbox rest) = .next t)
              ∨ (∃ cmd, inputRequest input = .illegal cmd ∧ t = (s.setInbox rest).setFault cmd)
              ∨ (inputRequest input = .nothing ∧ t = s.setInbox rest))) := by
  cases hi : s.inbox with
  | nil =>
    rw [step, takeRequest_of_nil hi] at h
    obtain ⟨hf, rfl⟩ := wait_eq_next_iff.mp h
    exact ⟨hf, .inl ⟨rfl, rfl⟩⟩
  | cons input rest =>
    rw [step_of_cons hi] at h
    cases hr : inputRequest input with
    | run i =>
      simp only [hr] at h
      exact ⟨(exec_cases h).1, .inr ⟨input, rest, rfl, .inl ⟨i, hr, h⟩⟩⟩
    | illegal cmd =>
      simp only [hr] at h
      obtain ⟨hf, rfl⟩ := raiseIllegalCommand_eq_next_iff.mp h
      exact ⟨hf, .inr ⟨input, rest, rfl, .inr (.inl ⟨cmd, hr, rfl⟩)⟩⟩
    | nothing =>
      simp only [hr] at h
      obtain ⟨hf, rfl⟩ := wait_eq_next_iff.mp h
      exact ⟨hf, .inr ⟨input, rest, rfl, .inr (.inr ⟨hr, rfl⟩)⟩⟩

end Sys2Proof.Machine
end

