-- ==== Sys2Proof/Laws/Layout.lean ====
section
/-! SUPPORT. The fields of the line vector and of the event codes, and the units after RESET and POLL. -/

namespace Sys2Proof.Machine

theorem bits4_getLsbD (f : Fin 4 → Bool) (i : Fin 4) : (bits4 f).getLsbD i = f i := by
  fin_cases i <;> cases h0 : f 0 <;> cases h1 : f 1 <;> cases h2 : f 2 <;> cases h3 : f 3 <;> simp [bits4, h0, h1, h2, h3]

theorem codes4_field (f : Fin 4 → BitVec 2) (i : Fin 4) : (codes4 f).extractLsb' (2 * i) 2 = f i := by
  have key : ∀ c3 c2 c1 c0 : BitVec 2,
      (c3 ++ c2 ++ c1 ++ c0 : BitVec 8).extractLsb' 0 2 = c0 ∧ (c3 ++ c2 ++ c1 ++ c0 : BitVec 8).extractLsb' 2 2 = c1
        ∧ (c3 ++ c2 ++ c1 ++ c0 : BitVec 8).extractLsb' 4 2 = c2 ∧ (c3 ++ c2 ++ c1 ++ c0 : BitVec 8).extractLsb' 6 2 = c3 := by
    decide
  obtain ⟨h0, h1, h2, h3⟩ := key (f 3) (f 2) (f 1) (f 0)
  fin_cases i
  · exact h0
  · exact h1
  · exact h2
  · exact h3

/-- A line vector's bit `k`, by the group of four it lies in (R54). -/
theorem lineVector_getLsbD (sw a b : Fin 4 → Bool) (k : Nat) :
    (lineVector sw a b).getLsbD k
      = if k < 4 then (bits4 sw).getLsbD k else if k < 8 then (bits4 a).getLsbD (k - 4) else (bits4 b).getLsbD (k - 8) := by
  change BitVec.getLsbD (w := 4 + 4 + 4) ((bits4 b ++ bits4 a) ++ bits4 sw) k = _
  rw [BitVec.getLsbD_append, BitVec.getLsbD_append]
  by_cases h4 : k < 4
  · simp [h4]
  · by_cases h8 : k < 8
    · simp [h4, h8, show k - 4 < 4 by omega]
    · simp [h4, h8, show ¬ k - 4 < 4 by omega, show k - 4 - 4 = k - 8 by omega]

/-- The event word's bit `k`, by the group of codes it lies in, and zeros above (R55, R111). -/
theorem eventWord_getLsbD (s : State) (k : Nat) :
    (eventWord s).getLsbD k
      = if k < 8 then (codes4 fun i => s.switches[i].edge.code).getLsbD k
        else (codes4 fun j => s.encoders[j].evt.code).getLsbD (k - 8) := by
  simp only [eventWord, BitVec.getLsbD_setWidth, BitVec.getLsbD_append]
  by_cases h8 : k < 8
  · simp only [h8, if_true, show k < 32 by omega, decide_true, Bool.true_and]
  · by_cases h32 : k < 32
    · simp only [h8, h32, if_false, decide_true, Bool.true_and]
    · simp only [h8, h32, if_false, decide_false, Bool.false_and]
      rw [BitVec.getLsbD_of_ge _ _ (by omega)]

theorem lineVector_switch (sw a b : Fin 4 → Bool) (i : Fin 4) : switchBit (lineVector sw a b) i = sw i := by
  rw [switchBit, lineVector_getLsbD, if_pos i.isLt, bits4_getLsbD]

theorem lineVector_phaseA (sw a b : Fin 4 → Bool) (j : Fin 4) : phaseABit (lineVector sw a b) j = a j := by
  rw [phaseABit, lineVector_getLsbD, if_neg (by omega), if_pos (by omega), Nat.add_sub_cancel_left, bits4_getLsbD]

theorem lineVector_phaseB (sw a b : Fin 4 → Bool) (j : Fin 4) : phaseBBit (lineVector sw a b) j = b j := by
  rw [phaseBBit, lineVector_getLsbD, if_neg (by omega), if_neg (by omega), Nat.add_sub_cancel_left, bits4_getLsbD]

@[simp] theorem pollUnits_switch (x : Lines) (s : State) (k : Nat) (hk : k < 4) :
    (pollUnits x s).switches[k] = switchStep s.params s.switches[k] (switchBit x ⟨k, hk⟩) := by
  simp [pollUnits]

@[simp] theorem pollUnits_encoder (x : Lines) (s : State) (k : Nat) (hk : k < 4) :
    (pollUnits x s).encoders[k] = rotaryStep s.params s.encoders[k] (phaseABit x ⟨k, hk⟩) (phaseBBit x ⟨k, hk⟩) := by
  simp [pollUnits]

@[simp] theorem pollUnits_params (x : Lines) (s : State) : (pollUnits x s).params = s.params := rfl
@[simp] theorem pollUnits_fault (x : Lines) (s : State) : (pollUnits x s).fault = s.fault := rfl
@[simp] theorem pollUnits_faultCmd (x : Lines) (s : State) : (pollUnits x s).faultCmd = s.faultCmd := rfl
@[simp] theorem pollUnits_inbox (x : Lines) (s : State) : (pollUnits x s).inbox = s.inbox := rfl
@[simp] theorem pollUnits_response (x : Lines) (s : State) : (pollUnits x s).response = s.response := rfl
@[simp] theorem resetUnits_params (s : State) : (resetUnits s).params = s.params := rfl
@[simp] theorem resetUnits_switches (s : State) : (resetUnits s).switches = initialSwitches s.params := rfl
@[simp] theorem resetUnits_encoders (s : State) : (resetUnits s).encoders = initialEncoders s.params := rfl
@[simp] theorem resetUnits_fault (s : State) : (resetUnits s).fault = s.fault := rfl
@[simp] theorem resetUnits_faultCmd (s : State) : (resetUnits s).faultCmd = s.faultCmd := rfl
@[simp] theorem resetUnits_inbox (s : State) : (resetUnits s).inbox = s.inbox := rfl
@[simp] theorem resetUnits_response (s : State) : (resetUnits s).response = s.response := rfl

end Sys2Proof.Machine
end

