-- ==== Sys2Proof/Laws/PerInstr.lean ====
section
/-! SUPPORT. What holds of every instruction as syntax, one lemma per constructor: the fields of its command word
(spec/30_encoding.md R50, R52, R53, R58). -/

namespace Sys2Proof.Laws

/-- The command word has one of R52's opcodes, zero reserved bits, and is legal. -/
def EncodeFields.Statement (i : Instr) : Prop :=
  1 ≤ (cmdOp (encode i)).toNat ∧ (cmdOp (encode i)).toNat ≤ 4 ∧ cmdRsv (encode i) = 0#16 ∧ illegalWord (encode i) = false

theorem EncodeFields.reset : EncodeFields.Statement .reset := by
  unfold EncodeFields.Statement; decide

theorem EncodeFields.poll (sample : Lines) : EncodeFields.Statement (.poll sample) := by
  have hop : cmdOp (encode (.poll sample)) = 2#4 := by
    apply BitVec.eq_of_getLsbD_eq
    intro k hk
    interval_cases k <;> simp [cmdOp, encode, commandWord]
  have hrsv : cmdRsv (encode (.poll sample)) = 0#16 := by
    apply BitVec.eq_of_getLsbD_eq
    intro k hk
    interval_cases k <;> simp [cmdRsv, encode, commandWord]
  simp [EncodeFields.Statement, illegalWord, hop, hrsv]

theorem EncodeFields.readLevels : EncodeFields.Statement .readLevels := by
  unfold EncodeFields.Statement; decide

theorem EncodeFields.readEvents : EncodeFields.Statement .readEvents := by
  unfold EncodeFields.Statement; decide

end Sys2Proof.Laws
end

