-- ==== Sys2Proof/Tests/Slice0.lean ====
section
/-! SUPPORT. The model's own tests. Expected values come from spec/95_test_vectors.md and the rules named beside them, never from
the model. The witnesses at the end show, for each statement of Certificates/Slice0/Obligations.lean that has hypotheses, a
concrete state and operands that meet all of them. -/

namespace Sys2Proof.Machine

/-! ### Well-formedness and decoding -/

/-- R7: window lengths 0 and 9 are illegal, 1 and 8 legal. -/
theorem test_params_outside_legal_values :
    Params.wellFormed ⟨0, 2, 0, .after⟩ = false ∧ Params.wellFormed ⟨9, 2, 0, .after⟩ = false
      ∧ Params.wellFormed ⟨4, 0, 0, .after⟩ = false ∧ Params.wellFormed ⟨4, 9, 0, .after⟩ = false
      ∧ Params.wellFormed ⟨1, 8, 0xFFF, .before⟩ = true ∧ Params.wellFormed ⟨8, 1, 0, .after⟩ = true := by decide

/-- R58 (a), (b), (c), one word for each opcode and field the rule names; X-5 to X-12. -/
theorem test_illegal_words :
    [0x00000000#32, 0x50000000#32, 0xF0000000#32, 0x20001000#32, 0x28000000#32, 0x10000001#32, 0x30000001#32,
      0x40000800#32].all illegalWord = true := by decide

/-- R59: the decoder rejects an illegal word by name (X-5, X-8, X-9, X-12). -/
theorem test_decode_rejects :
    decode 0x00000000 = .error (.illegalCommand 0x00000000) ∧ decode 0x2FFFF000 = .error (.illegalCommand 0x2FFFF000)
      ∧ decode 0x30000001 = .error (.illegalCommand 0x30000001) ∧ decode 0xF0000000 = .error (.illegalCommand 0xF0000000) := by
  decide

/-- R52: RESET is OP 0x1 with every other bit 0 (X-1). -/
theorem test_decode_reset : decode 0b00010000000000000000000000000000#32 = .ok .reset := by decide

/-- R53, R60: POLL with sw = 0001, a = 0010, b = 1000. -/
theorem test_decode_poll : decode 0b00100000000000000000100000100001#32 = .ok (.poll 0x821#12) := by decide

/-- R52: READ_LEVELS (X-3). -/
theorem test_decode_read_levels : decode 0b00110000000000000000000000000000#32 = .ok .readLevels := by decide

/-- R52: READ_EVENTS (X-4). -/
theorem test_decode_read_events : decode 0b01000000000000000000000000000000#32 = .ok .readEvents := by decide

/-- R52, R53: the encoder writes the table's words. -/
theorem test_encode :
    encode .reset = 0x10000000#32 ∧ encode (.poll 0xFFF#12) = 0x20000FFF#32 ∧ encode .readLevels = 0x30000000#32
      ∧ encode .readEvents = 0x40000000#32 := by decide

/-! ### The primitives -/

/-- Section 2's vectors D-1 to D-8, window length 4. -/
theorem test_debounce_four :
    debounce 4 0b0000 false true = (0b0001, false, .none) ∧ debounce 4 0b0111 false true = (0b1111, true, .rising)
      ∧ debounce 4 0b1111 true true = (0b1111, true, .none) ∧ debounce 4 0b1111 true false = (0b1110, true, .none)
      ∧ debounce 4 0b1000 true false = (0b0000, false, .falling) ∧ debounce 4 0b1110 true true = (0b1101, true, .none)
      ∧ debounce 4 0b0111 true true = (0b1111, true, .none) ∧ debounce 4 0b1000 false false = (0b0000, false, .none) := by
  decide

/-- Section 2's vectors D-9 to D-13, window lengths 1, 2 and 8. -/
theorem test_debounce_other_lengths :
    debounce 1 0b0 false true = (0b1, true, .rising) ∧ debounce 1 0b1 true false = (0b0, false, .falling)
      ∧ debounce 2 0b01 false true = (0b11, true, .rising) ∧ debounce 2 0b10 true false = (0b00, false, .falling)
      ∧ debounce 8 0b01111111 false true = (0b11111111, true, .rising) := by decide

/-- R86's example. -/
theorem test_rotary_step_cw :
    rotaryStep Params.default ⟨⟨0b01, false⟩, ⟨0b00, false⟩, .none⟩ true false = ⟨⟨0b11, true⟩, ⟨0b00, false⟩, .cw⟩ := by decide

/-- R90: phase A and phase B rise together; the two views give opposite directions. -/
theorem test_rotary_step_views :
    (rotaryStep Params.default ⟨⟨0b01, false⟩, ⟨0b01, false⟩, .none⟩ true true).evt = .ccw
      ∧ (rotaryStep { Params.default with encBView := .before } ⟨⟨0b01, false⟩, ⟨0b01, false⟩, .none⟩ true true).evt = .cw := by
  decide

/-- R56: code 11 reads back as no event. -/
theorem test_code_eleven : Edge.ofCode 0b11 = none ∧ Dir.ofCode 0b11 = none ∧ Edge.ofCode 0b10 = some .falling := by decide

/-! ### One command each -/

/-- Every window one sample of 1 short of full, every level 0: the next POLL of ones flips all twelve lines. -/
def almostHigh : State :=
  { State.reset with
    switches := Vector.replicate 4 ⟨⟨0b0111, false⟩, .none⟩
    encoders := Vector.replicate 4 ⟨⟨0b01, false⟩, ⟨0b00, false⟩, .none⟩ }

/-- Levels and events of all kinds: switch 0 just rose, switch 1 just fell, encoder 1 just reported CCW. -/
def mixed : State :=
  { State.reset with
    switches := #v[⟨⟨0b1111, true⟩, .rising⟩, ⟨⟨0b0000, false⟩, .falling⟩, ⟨⟨0b0000, false⟩, .none⟩, ⟨⟨0b0000, false⟩, .none⟩]
    encoders := #v[⟨⟨0b00, false⟩, ⟨0b00, false⟩, .none⟩, ⟨⟨0b11, true⟩, ⟨0b11, true⟩, .ccw⟩,
      ⟨⟨0b00, false⟩, ⟨0b00, false⟩, .none⟩, ⟨⟨0b00, false⟩, ⟨0b00, false⟩, .none⟩] }

/-- A state with one command word waiting. -/
def waiting (s : State) (cmd : Word) : State := { s with inbox := [.command cmd] }

/-- The response of an outcome's next state. -/
def responseOf (o : Host.Outcome State Fault Refusal) : Option Word := (nextOf o).bind State.response

/-- R100, R121 (X-1): RESET answers 0 and READ_LEVELS then answers INIT_LEVELS. -/
theorem test_reset_response : responseOf (exec .reset mixed) = some 0x00000000 := by decide

/-- R33, R100: RESET fills switch 0's window and level from INIT_LEVELS = 0x001 and clears its edge. -/
theorem test_reset_levels :
    (nextOf (exec .reset { mixed with params := { Params.default with initLevels := 0x001 } })).map (·.switches[0])
      = some ⟨⟨0b1111, true⟩, .none⟩ := by decide

/-- R114: the POLL that raises every switch and every phase A, phase B low, reports 0x00005555. -/
theorem test_poll_all_rise : responseOf (exec (.poll 0x0FF#12) almostHigh) = some 0x00005555 := by decide

/-- R88, R115: a POLL of the held levels overwrites the events with NONE. -/
theorem test_poll_replaces_events : responseOf (exec (.poll 0x221#12) mixed) = some 0x00000000 := by decide

/-- R120's example. -/
theorem test_read_levels : responseOf (exec .readLevels mixed) = some 0x00000221 := by decide

/-- R122, R55: switch 0 RISING, switch 1 FALLING, encoder 1 CCW. -/
theorem test_read_events : responseOf (exec .readEvents mixed) = some 0x00000809 := by decide

/-! ### Steps -/

/-- The word placed with `withFetchWord` is the one the next step runs. -/
theorem test_step_runs_fetched_word :
    nextOf (step (State.reset.withFetchWord 32 0x20000FFF)) = nextOf (exec (.poll 0xFFF#12) State.reset) := by decide

/-- P3, step 11: the illegal word 0x50000000 sets `fault` and keeps the registers. -/
theorem test_step_illegal_word :
    nextOf (step (waiting mixed 0x50000000))
      = some { mixed with fault := true, faultCmd := some 0x50000000, inbox := [], response := none } := by decide

/-- R131: a faulted block has no further step. -/
theorem test_step_after_fault : step { waiting mixed 0x10000000 with fault := true } = .fault .illegalCommand := by rfl

/-- R61, R134: `rst` wins over a simultaneous `poll`. -/
theorem test_ports_reset_wins :
    nextOf (step { mixed with inbox := [.ports 0xFFF true true] }) = nextOf (exec .reset mixed) := by decide

/-- R61: the output ports of `mixed`. -/
theorem test_ports_outputs : levelPort mixed = 0x221 ∧ eventsPort mixed = 0x0809 := by decide

/-! ### Text (R60) -/

theorem test_text_field_form :
    parseLine ['P', 'O', 'L', 'L', ' ', 's', 'w', '=', '0', 'b', '0', '0', '0', '1', ' ', 'a', '=', '0', 'b', '0', '0', '1', '0',
      ' ', 'b', '=', '0', 'b', '0', '0', '0', '0'] = some (.poll 0x021#12) := by decide

theorem test_text_hex : assembleLine ['P', 'O', 'L', 'L', ' ', '0', 'x', '1', '2', '3'] = some 0x20000123#32 := by decide

theorem test_text_rejects :
    parseLine ['p', 'o', 'l', 'l', ' ', '0', 'x', '1'] = none ∧ parseLine ['P', 'O', 'L', 'L', ' ', '0', 'x', '1', '0', '0', '0'] = none
      ∧ parseLine ['R', 'E', 'S', 'E', 'T', ' ', '0', 'x', '0'] = none := by decide

/-! ### Witnesses of the statements' hypotheses -/

/-- The states the tests use are good and run. -/
theorem test_witness_good_states :
    State.reset.Inv ∧ almostHigh.Inv ∧ mixed.Inv ∧ State.reset.fault = false ∧ almostHigh.fault = false ∧ mixed.fault = false :=
  ⟨by decide, by decide, by decide, rfl, rfl, rfl⟩

/-- IllegalWordsAreExactlyThose, IllegalWordSetsOnlyFault, FaultIsStickyAndFinal: words at the edge of every clause, illegal under
(a) at OP 0, 5 and 15, (b) at RSV's lowest and highest bit, (c) for each of the three opcodes, and legal ones. -/
theorem test_witness_illegal_words :
    (waiting mixed 0x00000000).fault = false ∧ (waiting mixed 0x00000000).inbox = [.command 0x00000000]
      ∧ illegalWord 0x00000000 = true ∧ illegalWord 0x50000000 = true ∧ illegalWord 0xF0000000 = true
      ∧ illegalWord 0x20001000 = true ∧ illegalWord 0x28000000 = true
      ∧ illegalWord 0x10000001 = true ∧ illegalWord 0x30000800 = true ∧ illegalWord 0x40000001 = true
      ∧ illegalWord 0x10000000 = false ∧ illegalWord 0x20000FFF = false ∧ illegalWord 0x40000000 = false := by decide

/-- StepRunsTheDecodedCommand. -/
theorem test_witness_decoded_word :
    (waiting mixed 0x20000FFF).inbox = [.command 0x20000FFF] ∧ decode 0x20000FFF = .ok (.poll 0xFFF) := by decide

/-- PortActionsAreCommands: each of the four port samplings can be waiting. -/
theorem test_witness_ports :
    ({ mixed with inbox := [.ports 0xFFF true true] } : State).inbox = [.ports 0xFFF true true]
      ∧ nextOf (step { mixed with inbox := [.ports 0xFFF true false] }) = nextOf (exec (.poll 0xFFF#12) mixed)
      ∧ nextOf (step { mixed with inbox := [.ports 0xFFF false false] }) = some mixed
      ∧ nextOf (step { mixed with inbox := [.ports 0xFFF false true] }) = nextOf (exec .reset mixed) := by decide

/-- EmptyInboxWaits. -/
theorem test_witness_empty_inbox : mixed.fault = false ∧ mixed.inbox = [] ∧ nextOf (step mixed) = some mixed := by decide

/-- InputsAreTakenInOrder, ParametersNeverChange, StepKeepsGoodStates, OnlyPollAndResetWriteRegisters: a step that answers a next
state with other registers. -/
theorem test_witness_step_next :
    (waiting almostHigh 0x200000FF).Inv
      ∧ ∃ t, nextOf (step (waiting almostHigh 0x200000FF)) = some t ∧ t.switches ≠ almostHigh.switches := by
  refine ⟨by decide, _, rfl, by decide⟩

/-- FaultIsStickyAndFinal and IllegalCommandIsTheOnlyException: a step that answers a next faulted state, one that answers an
unfaulted one, and a step that answers a fault. -/
theorem test_witness_fault_steps :
    (∃ t, step (waiting mixed 0x50000000) = .next t ∧ t.fault = true)
      ∧ (∃ t, step (waiting mixed 0x10000000) = .next t ∧ t.fault = false)
      ∧ step { mixed with fault := true } = .fault .illegalCommand :=
  ⟨⟨_, rfl, rfl⟩, ⟨_, rfl, rfl⟩, rfl⟩

/-- LegalCommandsNeverRaise: legal parameters at both ends of the range, and illegal ones just outside it. -/
theorem test_witness_parameters :
    nextOf (construct ⟨1, 8, 0xFFF, .before⟩) = some (State.powerOn ⟨1, 8, 0xFFF, .before⟩)
      ∧ nextOf (construct ⟨9, 2, 0, .after⟩) = none ∧ nextOf (construct ⟨4, 0, 0, .after⟩) = none := by decide

/-- ResetGivesInitialLevels, ResetIsPowerOnAgain, ResetIsIdempotent, ReadLevelsAfterReset: `mixed` runs, with the default
parameters, and a faulted state. -/
theorem test_witness_reset :
    mixed.fault = false ∧ mixed.params = Params.default ∧ ({ mixed with fault := true } : State).fault = true := by decide

/-- DebounceShiftsAndDecides: windows that become all ones, all zeros, and neither. -/
theorem test_witness_debounce_clauses :
    (∀ k < 4, (debounce 4 0b0111 false true).1.getLsbD k = true) ∧ (∀ k < 4, (debounce 4 0b1000 true false).1.getLsbD k = false)
      ∧ (∃ k < 4, (debounce 4 0b0101 true false).1.getLsbD k = true) ∧ (∃ k < 4, (debounce 4 0b0101 true false).1.getLsbD k = false) := by
  decide

/-- StableLevelHoldsUnlessUniform: a level that changes, and windows that agree with the level held, high and low. -/
theorem test_witness_uniform_windows :
    (debounce 4 0b0111 false true).2.1 ≠ false ∧ (debounce 4 0b0111 true true).1 = BitVec.allOnes 4
      ∧ (debounce 4 0b1000 false false).1 = 0 := by decide

/-- WindowOfOneFollowsTheRawLevel: both consistent lines of window length 1. -/
theorem test_witness_window_of_one : LineOk 1 ⟨0b1, true⟩ ∧ LineOk 1 ⟨0b0, false⟩ := by decide

/-- ShortRunsNeverFlip: three samples of 1 on a low line of window length 4, then a 0. -/
theorem test_witness_short_run :
    windowLengthOk 4 = true ∧ LineOk 4 ⟨0b0000, false⟩
      ∧ NoRunOf 4 true (windowSamples 4 ⟨0b0000, false⟩ ++ [true, true, true, false]) := by
  refine ⟨by decide, by decide, ?_⟩
  unfold NoRunOf
  decide

/-- FirstEdgeComesOnTheNthSample: bounced samples before the N-th one, for a window of 4. -/
theorem test_witness_first_edge :
    Params.default.wellFormed = true ∧ NoRunOf 4 true [true, false, true, true, true]
      ∧ NoRunOf 4 true ([true, false] ++ List.replicate (4 - 1) true) := by
  refine ⟨by decide, ?_, ?_⟩ <;> unfold NoRunOf <;> decide

/-- BounceRestartsTheCount: a line three samples into a change. -/
theorem test_witness_bounce : windowLengthOk 4 = true ∧ LineOk 4 ⟨0b0111, false⟩ ∧ windowLengthOk 8 = true ∧ LineOk 8 ⟨0xFE, true⟩ := by
  decide

/-- PollOfTheHeldLevelsChangesNoLine: `mixed` has uniform windows, and 0x221 is its levels. -/
theorem test_witness_held_levels :
    mixed.Inv
      ∧ (∀ i : Fin 4, (lineWindow 4 mixed.switches[i].line = BitVec.allOnes 4 ∨ lineWindow 4 mixed.switches[i].line = 0)
          ∧ (0x221#12).getLsbD i = mixed.switches[i].line.stable)
      ∧ (∀ j : Fin 4, (lineWindow 2 mixed.encoders[j].a = BitVec.allOnes 2 ∨ lineWindow 2 mixed.encoders[j].a = 0)
          ∧ (0x221#12).getLsbD (4 + j) = mixed.encoders[j].a.stable
          ∧ (lineWindow 2 mixed.encoders[j].b = BitVec.allOnes 2 ∨ lineWindow 2 mixed.encoders[j].b = 0)
          ∧ (0x221#12).getLsbD (8 + j) = mixed.encoders[j].b.stable) := by decide

/-- OnlyARisingPhaseAEmits, UnitsDoNotInterfere: a POLL on which phase A of encoder 2 rises. -/
theorem test_witness_phase_a_rises :
    ∃ t, exec (.poll 0x040#12) almostHigh = .next t ∧ almostHigh.encoders[2].a.stable = false ∧ t.encoders[2].a.stable = true :=
  ⟨_, rfl, by decide, by decide⟩

/-- Both phases of every encoder one sample short of rising. -/
def bothAlmostHigh (v : BView) : State :=
  { State.reset with
    params := { Params.default with encBView := v }
    encoders := Vector.replicate 4 ⟨⟨0b01, false⟩, ⟨0b01, false⟩, .none⟩ }

/-- SimultaneousRiseFollowsTheView and ViewsDifferOnlyInThatCorner: both phases of encoder 0 rise on one tick, under each view. -/
theorem test_witness_simultaneous_rise :
    (∃ t, exec (.poll 0x110#12) (bothAlmostHigh .after) = .next t ∧ (bothAlmostHigh .after).encoders[0].a.stable = false
        ∧ t.encoders[0].a.stable = true ∧ t.encoders[0].b.stable ≠ (bothAlmostHigh .after).encoders[0].b.stable)
      ∧ ∃ t, exec (.poll 0x110#12) (bothAlmostHigh .before) = .next t ∧ (bothAlmostHigh .before).encoders[0].a.stable = false
        ∧ t.encoders[0].a.stable = true ∧ t.encoders[0].b.stable ≠ (bothAlmostHigh .before).encoders[0].b.stable :=
  ⟨⟨_, rfl, by decide, by decide, by decide⟩, ⟨_, rfl, by decide, by decide, by decide⟩⟩

/-- EncoderWindowOfOne: a good state with N_ENC = 1 under AFTER. -/
theorem test_witness_encoder_window_of_one :
    (State.powerOn { Params.default with nEnc := 1 }).Inv ∧ (State.powerOn { Params.default with nEnc := 1 }).fault = false
      ∧ (State.powerOn { Params.default with nEnc := 1 }).params.encBView = .after := by decide

/-- OneEventPerQuadratureCycle: legal parameters, phases held at exactly N_ENC ticks and longer. -/
theorem test_witness_quadrature_cycle : Params.default.wellFormed = true ∧ Params.default.nEnc ≤ 2 ∧ Params.default.nEnc ≤ 5 := by
  decide

/-- BouncingSwitchKeepsItsLevel: two POLLs of 1 on switch 2, whose window is all zeros. -/
theorem test_witness_bouncing_switch :
    State.reset.Inv ∧ (∃ t, runCommands ([0x004#12, 0x004#12].map .poll) State.reset = .next t)
      ∧ NoRunOf State.reset.params.nSw (!State.reset.switches[2].line.stable)
          (windowSamples State.reset.params.nSw State.reset.switches[2].line ++ [0x004#12, 0x004#12].map fun y => y.getLsbD 2) := by
  refine ⟨by decide, ⟨_, rfl⟩, ?_⟩
  unfold NoRunOf
  decide

/-- ReadsAreIdempotent and EventCodeElevenNeverAppears: reads and a POLL that answer a next state with a response. -/
theorem test_witness_reads :
    (∃ t, exec .readLevels mixed = .next t) ∧ (∃ t, exec .readEvents mixed = .next t ∧ t.response = some 0x00000809)
      ∧ ∃ t, exec (.poll 0x0FF#12) almostHigh = .next t ∧ t.response = some 0x00005555 :=
  ⟨⟨_, rfl⟩, ⟨_, rfl, by decide⟩, ⟨_, rfl, by decide⟩⟩

/-- PollStepsEverySwitch, PollStepsEveryEncoder, PollRespondsWithTheNewEvents, PollChangesOnlyLinesAndEvents,
PollSequencesRunEachLine, ReadLevelsReturnsTheStableLevels, ReadEventsReturnsTheEvents, PowerOnIsGood: a running state and
legal parameters. -/
theorem test_witness_running : almostHigh.fault = false ∧ Params.default.wellFormed = true := by decide

end Sys2Proof.Machine
end

section
/-! SUPPORT. No command and no step changes the parameters (spec/00_scope.md R7, spec/42_control.md R101). -/

namespace Sys2Proof.Machine

/-- A command writes the units and the response only (R101, R110, R120, R122). -/
theorem exec_keeps_params {i : Instr} {s t : State} (h : exec i s = .next t) : t.params = s.params := by
  obtain ⟨-, ⟨-, rfl⟩ | ⟨x, -, rfl⟩ | ⟨-, rfl⟩ | ⟨-, rfl⟩⟩ := exec_cases h
  · simp only [State.setResponse_params, resetUnits_params]
  · simp only [State.setResponse_params, pollUnits_params]
  · exact State.setResponse_params _ s
  · exact State.setResponse_params _ s

/-- Beside running a command, a step takes an input and sets the fault only (R102, R151). -/
theorem step_keeps_params {s t : State} (h : step s = .next t) : t.params = s.params := by
  obtain ⟨-, ⟨-, rfl⟩ | ⟨input, rest, -, ⟨i, -, hexec⟩ | ⟨cmd, -, rfl⟩ | ⟨-, rfl⟩⟩⟩ := step_cases h
  · rfl
  · exact (exec_keeps_params hexec).trans (State.setInbox_params rest s)
  · simp only [State.setFault_params, State.setInbox_params]
  · exact State.setInbox_params rest s

/-- RESET completes on every running block (R100). -/
theorem exec_reset_of_running {s : State} (h : s.fault = false) :
    exec .reset s = .next ((resetUnits s).setResponse 0x00000000#32) :=
  complete_of_running resetUnits (fun _ => 0x00000000#32) h

/-- Settles O15: the frame of a step, and RESET's completion with the frame of its command. -/
theorem parametersNeverChange : Obligations.ParametersNeverChange :=
  ⟨fun _ _ h => step_keeps_params h,
    fun _ hf => ⟨_, exec_reset_of_running hf, exec_keeps_params (exec_reset_of_running hf)⟩⟩

end Sys2Proof.Machine
end

section
/-! SUPPORT. One sample, power-on, every command and every step keep good states good (spec/10_state.md R33, R34;
spec/40_debounce.md R71; spec/41_rotary.md R86). -/

namespace Sys2Proof.Machine

/-! ### Window lengths -/

theorem windowLengthOk_iff {n : Nat} : windowLengthOk n = true ↔ 0 < n ∧ n ≤ 8 := by
  simp only [windowLengthOk, Bool.and_eq_true, decide_eq_true_eq, Nat.succ_le_iff]

theorem Params.wellFormed_iff {p : Params} :
    p.wellFormed = true ↔ windowLengthOk p.nSw = true ∧ windowLengthOk p.nEnc = true := by
  simp only [Params.wellFormed, Bool.and_eq_true]

/-- A window that holds a sample is not all ones and all zeros at once. -/
theorem allOnes_ne_zero_of_pos {n : Nat} (hn : 0 < n) : BitVec.allOnes n ≠ 0#n := fun h => by
  have hbit := congrArg (·.getLsbD 0) h
  simp [hn] at hbit

/-! ### One line -/

/-- R71 on a line's registers: the new level is read from the new window. -/
theorem sampleLine_stable_eq_of_window {n : Nat} (hn : n ≤ 8) (d : Debouncer) (r : Bool) :
    (sampleLine n d r).1.stable
      = if lineWindow n (sampleLine n d r).1 = BitVec.allOnes n then true
        else if lineWindow n (sampleLine n d r).1 = 0#n then false else d.stable := by
  rw [sampleLine_stable, lineWindow_sampleLine hn, debounce_stable]

theorem lineOk_sampleLine {n : Nat} (hn : windowLengthOk n = true) (d : Debouncer) (r : Bool) :
    LineOk n (sampleLine n d r).1 := by
  obtain ⟨hpos, hle⟩ := windowLengthOk_iff.mp hn
  refine ⟨sampleLine_hist_lt n d r, fun hones => ?_, fun hzero => ?_⟩
  · rw [sampleLine_stable_eq_of_window hle, if_pos hones]
  · rw [sampleLine_stable_eq_of_window hle, if_neg (hzero ▸ (allOnes_ne_zero_of_pos hpos).symm), if_pos hzero]

/-- A line rises only by a window full of ones (R71). -/
theorem sampleLine_rising {n : Nat} (hn : n ≤ 8) {d : Debouncer} {r : Bool} (h : (sampleLine n d r).2 = .rising) :
    lineWindow n (sampleLine n d r).1 = BitVec.allOnes n ∧ (sampleLine n d r).1.stable = true := by
  obtain ⟨hold, hnew⟩ := edgeOf_eq_rising_iff.mp (sampleLine_edge d r ▸ h)
  refine ⟨by_contra fun hones => ?_, hnew⟩
  rw [sampleLine_stable_eq_of_window hn, if_neg hones, hold, ite_self] at hnew
  exact absurd hnew Bool.false_ne_true

/-- A line falls only by a window full of zeros (R71). -/
theorem sampleLine_falling {n : Nat} (hn : n ≤ 8) {d : Debouncer} {r : Bool} (h : (sampleLine n d r).2 = .falling) :
    lineWindow n (sampleLine n d r).1 = 0#n ∧ (sampleLine n d r).1.stable = false := by
  obtain ⟨hold, hnew⟩ := edgeOf_eq_falling_iff.mp (sampleLine_edge d r ▸ h)
  refine ⟨by_contra fun hzero => ?_, hnew⟩
  rw [sampleLine_stable_eq_of_window hn, if_neg hzero, hold, ite_self] at hnew
  exact absurd hnew.symm Bool.false_ne_true

theorem uniformWindow_toNat_lt (n : Nat) (v : Bool) : (uniformWindow n v).toNat < 2 ^ n := by
  cases v with
  | false => exact Nat.two_pow_pos n
  | true =>
    simp only [uniformWindow, if_true, BitVec.toNat_setWidth]
    exact Nat.lt_of_le_of_lt (Nat.mod_le _ _) (BitVec.isLt _)

theorem lineOk_initialLine {n : Nat} (hn : windowLengthOk n = true) (v : Bool) : LineOk n (initialLine n v) := by
  obtain ⟨hpos, hle⟩ := windowLengthOk_iff.mp hn
  have hne := allOnes_ne_zero_of_pos hpos
  refine ⟨uniformWindow_toNat_lt n v, ?_⟩
  rw [lineWindow_initialLine hle, initialLine_stable]
  cases v with
  | false => exact ⟨fun h => absurd h.symm hne, fun _ => rfl⟩
  | true => exact ⟨fun _ => rfl, fun h => absurd h hne⟩

/-! ### Directions -/

@[simp] theorem dirOf_eq_cw_iff {ea : Edge} {bv : Bool} : dirOf ea bv = .cw ↔ ea = .rising ∧ bv = false := by
  cases ea <;> cases bv <;> simp [dirOf]

@[simp] theorem dirOf_eq_ccw_iff {ea : Edge} {bv : Bool} : dirOf ea bv = .ccw ↔ ea = .rising ∧ bv = true := by
  cases ea <;> cases bv <;> simp [dirOf]

@[simp] theorem dirOf_eq_none_iff {ea : Edge} {bv : Bool} : dirOf ea bv = .none ↔ ea ≠ .rising := by
  cases ea <;> cases bv <;> simp [dirOf]

@[simp] theorem viewedB_after (old new : Bool) : viewedB .after old new = new := rfl

/-! ### One unit -/

section Units

variable {p : Params} (hp : p.wellFormed = true)
include hp

theorem switchOk_switchStep (sw : Switch) (r : Bool) : SwitchOk p (switchStep p sw r) := by
  obtain ⟨hn, -⟩ := Params.wellFormed_iff.mp hp
  obtain ⟨-, hle⟩ := windowLengthOk_iff.mp hn
  exact ⟨lineOk_sampleLine hn sw.line r, sampleLine_rising hle, sampleLine_falling hle⟩

theorem encoderOk_rotaryStep (enc : Encoder) (ra rb : Bool) : EncoderOk p (rotaryStep p enc ra rb) := by
  obtain ⟨-, hn⟩ := Params.wellFormed_iff.mp hp
  obtain ⟨-, hle⟩ := windowLengthOk_iff.mp hn
  refine ⟨lineOk_sampleLine hn enc.a ra, lineOk_sampleLine hn enc.b rb, fun hevt => ?_, fun hview hcw => ?_,
    fun hview hccw => ?_⟩
  · exact sampleLine_rising hle (not_not.mp fun hrise => hevt (dirOf_eq_none_iff.mpr hrise))
  · have hb := (dirOf_eq_cw_iff.mp hcw).2
    rw [hview, viewedB_after] at hb
    exact hb
  · have hb := (dirOf_eq_ccw_iff.mp hccw).2
    rw [hview, viewedB_after] at hb
    exact hb

theorem switchOk_initialSwitches (i : Fin 4) : SwitchOk p (initialSwitches p)[i] := by
  obtain ⟨hn, -⟩ := Params.wellFormed_iff.mp hp
  rw [Fin.getElem_fin, initialSwitches_getElem]
  exact ⟨lineOk_initialLine hn _, nofun, nofun⟩

theorem encoderOk_initialEncoders (j : Fin 4) : EncoderOk p (initialEncoders p)[j] := by
  obtain ⟨-, hn⟩ := Params.wellFormed_iff.mp hp
  rw [Fin.getElem_fin, initialEncoders_getElem]
  exact ⟨lineOk_initialLine hn _, lineOk_initialLine hn _, fun h => absurd rfl h, nofun, nofun⟩

end Units

/-! ### The state -/

theorem powerOn_inv {p : Params} (hp : p.wellFormed = true) : (State.powerOn p).Inv :=
  ⟨hp, switchOk_initialSwitches hp, encoderOk_initialEncoders hp, rfl, fun _ => rfl⟩

theorem setInbox_inv {s : State} (l : List HostInput) (h : s.Inv) : (s.setInbox l).Inv := h

theorem setFault_inv {s : State} (cmd : Word) (h : s.Inv) : (s.setFault cmd).Inv := by
  obtain ⟨hp, hsw, henc, -, -⟩ := h
  exact ⟨hp, hsw, henc, rfl, fun _ => rfl⟩

/-- A running block may hold any response (log 3). -/
theorem setResponse_inv {s : State} (w : Word) (hf : s.fault = false) (h : s.Inv) : (s.setResponse w).Inv := by
  obtain ⟨hp, hsw, henc, hcmd, -⟩ := h
  exact ⟨hp, hsw, henc, hcmd, fun ht => absurd (hf.symm.trans ht) Bool.false_ne_true⟩

theorem resetUnits_inv {s : State} (h : s.Inv) : (resetUnits s).Inv := by
  obtain ⟨hp, -, -, hcmd, hresp⟩ := h
  exact ⟨hp, switchOk_initialSwitches hp, encoderOk_initialEncoders hp, hcmd, hresp⟩

theorem pollUnits_inv {s : State} (x : Lines) (h : s.Inv) : (pollUnits x s).Inv := by
  obtain ⟨hp, -, -, hcmd, hresp⟩ := h
  refine ⟨hp, fun i => ?_, fun j => ?_, hcmd, hresp⟩
  · rw [Fin.getElem_fin, pollUnits_switch]
    exact switchOk_switchStep hp _ _
  · rw [Fin.getElem_fin, pollUnits_encoder]
    exact encoderOk_rotaryStep hp _ _ _

theorem exec_keeps_inv {i : Instr} {s t : State} (hs : s.Inv) (h : exec i s = .next t) : t.Inv := by
  obtain ⟨hf, ⟨-, rfl⟩ | ⟨x, -, rfl⟩ | ⟨-, rfl⟩ | ⟨-, rfl⟩⟩ := exec_cases h
  · exact setResponse_inv _ hf (resetUnits_inv hs)
  · exact setResponse_inv _ hf (pollUnits_inv x hs)
  · exact setResponse_inv _ hf hs
  · exact setResponse_inv _ hf hs

theorem step_keeps_inv {s t : State} (hs : s.Inv) (h : step s = .next t) : t.Inv := by
  obtain ⟨-, ⟨-, rfl⟩ | ⟨input, rest, -, ⟨i, -, hexec⟩ | ⟨cmd, -, rfl⟩ | ⟨-, rfl⟩⟩⟩ := step_cases h
  · exact hs
  · exact exec_keeps_inv (setInbox_inv rest hs) hexec
  · exact setFault_inv cmd (setInbox_inv rest hs)
  · exact setInbox_inv rest hs

/-- Settles O43: a step waits, takes an input, faults, or runs a command, and each of these keeps the state good. -/
theorem stepKeepsGoodStates : Obligations.StepKeepsGoodStates :=
  fun _ _ => step_keeps_inv

/-- Settles O44: R33's uniform windows agree with the levels they were filled from. -/
theorem powerOnIsGood : Obligations.PowerOnIsGood :=
  ⟨fun _ => powerOn_inv, powerOn_inv (p := Params.default) rfl⟩

end Sys2Proof.Machine
end

section
/-! SUPPORT. The fault bit along steps (spec/10_state.md R27; spec/60_exceptions.md R131). -/

namespace Sys2Proof.Machine

/-- The words R58 lists are words R59's decoder rejects. -/
theorem decode_of_illegalWord {cmd : Word} (h : illegalWord cmd = true) : decode cmd = .error (.illegalCommand cmd) := by
  simp only [illegalWord, Bool.or_eq_true, Bool.and_eq_true, beq_iff_eq, bne_iff_ne, decide_eq_true_eq] at h
  unfold decode
  obtain (hop | hrsv) | ⟨hop, hpay⟩ := h
  · have hother : cmdOp cmd ≠ 0x1#4 ∧ cmdOp cmd ≠ 0x2#4 ∧ cmdOp cmd ≠ 0x3#4 ∧ cmdOp cmd ≠ 0x4#4 := by
      generalize cmdOp cmd = op at hop
      revert op
      decide
    obtain ⟨h1, h2, h3, h4⟩ := hother
    simp only [h1, h2, h3, h4, if_false, ite_self]
  · exact if_pos hrsv
  · obtain (hop | hop) | hop := hop <;> simp [hop, hpay]

theorem inputRequest_of_illegalWord {cmd : Word} (h : illegalWord cmd = true) :
    inputRequest (.command cmd) = .illegal cmd := by
  simp only [inputRequest, wordRequest, decode_of_illegalWord h]

theorem exec_of_faulted {s : State} (i : Instr) (h : s.fault = true) : exec i s = .fault .illegalCommand := by
  cases i with
  | reset => exact complete_of_faulted resetUnits (fun _ => 0x00000000#32) h
  | poll x => exact complete_of_faulted (pollUnits x) eventWord h
  | readLevels => exact complete_of_faulted id levelWord h
  | readEvents => exact complete_of_faulted id eventWord h

/-- R27, and log 7: whatever waits, a faulted block has no step. -/
theorem step_of_faulted {s : State} (h : s.fault = true) : step s = .fault .illegalCommand := by
  cases hi : s.inbox with
  | nil =>
    rw [step, takeRequest_of_nil hi]
    exact ifRunning_of_faulted s h
  | cons input rest =>
    rw [step_of_cons hi]
    cases inputRequest input with
    | run i => exact exec_of_faulted i h
    | illegal cmd => exact ifRunning_of_faulted _ h
    | nothing => exact ifRunning_of_faulted _ h

/-- R131: the step that takes an illegal word leaves the block faulted. -/
theorem step_illegalWord_sets_fault {s t : State} {cmd : Word} {rest : List HostInput}
    (hi : s.inbox = .command cmd :: rest) (hw : illegalWord cmd = true) (h : step s = .next t) : t.fault = true := by
  rw [step_of_cons hi, inputRequest_of_illegalWord hw] at h
  obtain ⟨-, rfl⟩ := raiseIllegalCommand_eq_next_iff.mp h
  exact State.setFault_fault cmd _

/-- Settles O9: that the bit is never cleared is that only a running block steps. -/
theorem faultIsStickyAndFinal : Obligations.FaultIsStickyAndFinal :=
  ⟨State.powerOn_fault, fun _ _ _ _ => step_illegalWord_sets_fault, fun _ _ h _ => (step_cases h).1,
    fun _ hf => ⟨step_of_faulted hf, fun i => exec_of_faulted i hf⟩⟩

end Sys2Proof.Machine
end

section
/-! SUPPORT. The registers after power-on and RESET, bit by bit (spec/10_state.md R33). -/

namespace Sys2Proof.Machine

theorem lineAtReset_initialLine (n : Nat) (v : Bool) : LineAtReset n v (initialLine n v) :=
  ⟨fun k => by simp only [initialLine_hist, uniformWindow_getLsbD, k.isLt, decide_true, Bool.true_and], rfl⟩

/-- R33's assignments give R33's bits, whatever the other fields hold. -/
theorem atResetValues_of_initial {s : State} (hsw : s.switches = initialSwitches s.params)
    (henc : s.encoders = initialEncoders s.params) : s.AtResetValues := by
  refine ⟨fun i => ?_, fun j => ?_⟩
  · rw [hsw, Fin.getElem_fin, initialSwitches_getElem]
    exact ⟨lineAtReset_initialLine _ _, rfl⟩
  · rw [henc, Fin.getElem_fin, initialEncoders_getElem]
    exact ⟨lineAtReset_initialLine _ _, lineAtReset_initialLine _ _, rfl⟩

theorem powerOn_atResetValues (p : Params) : (State.powerOn p).AtResetValues := atResetValues_of_initial rfl rfl

theorem resetUnits_atResetValues (s : State) : (resetUnits s).AtResetValues := atResetValues_of_initial rfl rfl

/-- Settles O12: power-on and RESET make the same assignments; the default values are computed. -/
theorem resetGivesInitialLevels : Obligations.ResetGivesInitialLevels :=
  ⟨fun p => ⟨rfl, powerOn_atResetValues p, rfl⟩,
    fun s hf => ⟨_, exec_reset_of_running hf, resetUnits_atResetValues s, hf⟩,
    fun _ => exec_of_faulted .reset, by decide⟩

end Sys2Proof.Machine
end

section
/-! SUPPORT. What POLL leaves unchanged, and which steps write the switch and encoder registers (spec/10_state.md R28, R35;
spec/43_poll.md R110). -/

namespace Sys2Proof.Machine

/-- POLL completes on every running block (R110). -/
theorem exec_poll_of_running {s : State} (x : Lines) (h : s.fault = false) :
    exec (.poll x) s = .next ((pollUnits x s).setResponse (eventWord (pollUnits x s))) :=
  complete_of_running (pollUnits x) eventWord h

/-- Settles O27: POLL writes the units and the response only. -/
theorem pollChangesOnlyLinesAndEvents : Obligations.PollChangesOnlyLinesAndEvents :=
  fun _ x hf => ⟨_, exec_poll_of_running x hf, rfl, rfl, rfl, rfl⟩

/-- A command other than POLL and RESET holds every level and event (R35). -/
theorem exec_units_cases {i : Instr} {s t : State} (h : exec i s = .next t) :
    (t.switches = s.switches ∧ t.encoders = s.encoders) ∨ (∃ x, i = .poll x) ∨ i = .reset := by
  obtain ⟨-, ⟨hi, -⟩ | ⟨x, hi, -⟩ | ⟨-, rfl⟩ | ⟨-, rfl⟩⟩ := exec_cases h
  · exact .inr (.inr hi)
  · exact .inr (.inl ⟨x, hi⟩)
  · exact .inl ⟨rfl, rfl⟩
  · exact .inl ⟨rfl, rfl⟩

/-- A step that runs neither POLL nor RESET holds every level and event (R28, R35, R156). -/
theorem step_units_cases {s t : State} (h : step s = .next t) :
    (t.switches = s.switches ∧ t.encoders = s.encoders)
      ∨ ∃ input rest, s.inbox = input :: rest
        ∧ ((∃ x, inputRequest input = .run (.poll x)) ∨ inputRequest input = .run .reset) := by
  obtain ⟨-, ⟨-, rfl⟩ | ⟨input, rest, hin, ⟨i, hrun, hexec⟩ | ⟨cmd, -, rfl⟩ | ⟨-, rfl⟩⟩⟩ := step_cases h
  · exact .inl ⟨rfl, rfl⟩
  · obtain hheld | ⟨x, rfl⟩ | rfl := exec_units_cases hexec
    · exact .inl hheld
    · exact .inr ⟨input, rest, hin, .inl ⟨x, hrun⟩⟩
    · exact .inr ⟨input, rest, hin, .inr hrun⟩
  · exact .inl ⟨rfl, rfl⟩
  · exact .inl ⟨rfl, rfl⟩

/-- Settles O45: a step that changed a register did not hold them all. -/
theorem onlyPollAndResetWriteRegisters : Obligations.OnlyPollAndResetWriteRegisters :=
  fun _ _ h hchanged =>
    (step_units_cases h).resolve_left fun ⟨hsw, henc⟩ => hchanged.elim (· hsw) (· henc)

end Sys2Proof.Machine
end

section
/-! SUPPORT. Which input a step takes, and the commands that repeat to the same state (spec/20_memory.md R43, R44). -/

namespace Sys2Proof.Machine

/-- A command leaves the waiting inputs to the step that runs it (log 2). -/
theorem exec_keeps_inbox {i : Instr} {s t : State} (h : exec i s = .next t) : t.inbox = s.inbox := by
  obtain ⟨-, ⟨-, rfl⟩ | ⟨x, -, rfl⟩ | ⟨-, rfl⟩ | ⟨-, rfl⟩⟩ := exec_cases h
  · simp only [State.setResponse_inbox, resetUnits_inbox]
  · simp only [State.setResponse_inbox, pollUnits_inbox]
  · exact State.setResponse_inbox _ s
  · exact State.setResponse_inbox _ s

theorem step_inbox {s t : State} (h : step s = .next t) : t.inbox = s.inbox.tail := by
  obtain ⟨-, ⟨hi, rfl⟩ | ⟨input, rest, hi, hdone⟩⟩ := step_cases h
  · rw [hi, List.tail_nil]
  · rw [hi, List.tail_cons]
    obtain ⟨i, -, hexec⟩ | ⟨cmd, -, rfl⟩ | ⟨-, rfl⟩ := hdone
    · exact (exec_keeps_inbox hexec).trans (State.setInbox_inbox rest s)
    · simp only [State.setFault_inbox, State.setInbox_inbox]
    · exact State.setInbox_inbox rest s

/-- Settles O7: every step takes the oldest input off the inbox, and no command touches what waits. -/
theorem inputsAreTakenInOrder : Obligations.InputsAreTakenInOrder :=
  fun _ _ => step_inbox

@[simp] theorem levelWord_setResponse (w : Word) (s : State) : levelWord (s.setResponse w) = levelWord s := rfl
@[simp] theorem eventWord_setResponse (w : Word) (s : State) : eventWord (s.setResponse w) = eventWord s := rfl

@[simp] theorem State.setResponse_setResponse (v w : Word) (s : State) :
    (s.setResponse v).setResponse w = s.setResponse w := rfl

/-- R43: a command repeats to the same state when a second effect changes nothing and its answer does not read the response. -/
theorem complete_repeats {effect : State → State} {answer : State → Word} {s t : State}
    (hfault : (effect s).fault = s.fault)
    (heffect : ∀ w, effect ((effect s).setResponse w) = (effect s).setResponse w)
    (hanswer : ∀ w, answer ((effect s).setResponse w) = answer (effect s))
    (h : complete effect answer s = .next t) : complete effect answer t = .next t := by
  obtain ⟨hf, rfl⟩ := complete_eq_next_iff.mp h
  have hrunning : ((effect s).setResponse (answer (effect s))).fault = false := hfault.trans hf
  rw [complete_of_running effect answer hrunning, heffect, hanswer, State.setResponse_setResponse]

/-- The registers RESET writes are read from the parameters alone (R101). -/
theorem resetUnits_setResponse_resetUnits (w : Word) (s : State) :
    resetUnits ((resetUnits s).setResponse w) = (resetUnits s).setResponse w := rfl

/-- Settles O14: RESET completes, and its second run finds the registers at their initial values. -/
theorem resetIsIdempotent : Obligations.ResetIsIdempotent := fun s hf =>
  ⟨_, exec_reset_of_running hf,
    complete_repeats (effect := resetUnits) (answer := fun _ => 0x00000000#32) (resetUnits_fault s)
      (fun w => resetUnits_setResponse_resetUnits w s) (fun _ => rfl) (exec_reset_of_running hf)⟩

/-- Settles O40: a read has no effect, and neither word read depends on the response the first read left. -/
theorem readsAreIdempotent : Obligations.ReadsAreIdempotent := fun s _ =>
  ⟨complete_repeats rfl (fun _ => rfl) (fun w => levelWord_setResponse w s),
    complete_repeats rfl (fun _ => rfl) (fun w => eventWord_setResponse w s)⟩

end Sys2Proof.Machine
end

section
/-! SUPPORT. Command words as numbers, decoding against encoding, and the step that takes a command word
(spec/30_encoding.md R50-R53, R58, R59). -/

namespace Sys2Proof.Machine

/-! ### The fields of a word as numbers -/

/-- A vector or-ed with a shifted one is their sum when the two do not overlap. -/
theorem toNat_or_shiftLeft {w n : Nat} (x y : BitVec w) (hx : x.toNat < 2 ^ n) (hy : y.toNat * 2 ^ n < 2 ^ w) :
    (x ||| y <<< n).toNat = x.toNat + y.toNat * 2 ^ n := by
  rw [BitVec.toNat_or, BitVec.toNat_shiftLeft, Nat.shiftLeft_eq, Nat.mod_eq_of_lt hy, Nat.or_comm,
    ← Nat.shiftLeft_eq, ← Nat.shiftLeft_add_eq_or_of_lt hx, Nat.add_comm]

theorem cmdOp_toNat (cmd : Word) : (cmdOp cmd).toNat = cmd.toNat / 2 ^ 28 := by
  rw [cmdOp, BitVec.extractLsb'_toNat, Nat.shiftRight_eq_div_pow]
  omega

theorem cmdRsv_toNat (cmd : Word) : (cmdRsv cmd).toNat = cmd.toNat / 2 ^ 12 % 2 ^ 16 := by
  rw [cmdRsv, BitVec.extractLsb'_toNat, Nat.shiftRight_eq_div_pow]

theorem cmdPayload_toNat (cmd : Word) : (cmdPayload cmd).toNat = cmd.toNat % 2 ^ 12 := by
  rw [cmdPayload, BitVec.extractLsb'_toNat, Nat.shiftRight_zero]

/-- R50 and R53: a command word is its opcode and its payload, with zeros between. -/
theorem commandWord_toNat (op : BitVec 4) (x : Lines) : (commandWord op x).toNat = x.toNat + op.toNat * 2 ^ 28 := by
  have hop : (op.setWidth 32).toNat = op.toNat := BitVec.toNat_setWidth_of_le (by decide)
  have hx : (x.setWidth 32).toNat = x.toNat := BitVec.toNat_setWidth_of_le (by decide)
  rw [commandWord, BitVec.or_comm, toNat_or_shiftLeft _ _ (by omega) (by omega), hop, hx]

/-- A word is determined by its three fields. -/
theorem eq_commandWord_iff {cmd : Word} {op : BitVec 4} {x : Lines} :
    cmd = commandWord op x ↔ cmdRsv cmd = 0#16 ∧ cmdOp cmd = op ∧ cmdPayload cmd = x := by
  simp only [← BitVec.toNat_inj, cmdRsv_toNat, cmdOp_toNat, cmdPayload_toNat, commandWord_toNat, BitVec.toNat_ofNat]
  omega

@[simp] theorem cmdRsv_commandWord (op : BitVec 4) (x : Lines) : cmdRsv (commandWord op x) = 0#16 :=
  (eq_commandWord_iff.mp rfl).1

@[simp] theorem cmdOp_commandWord (op : BitVec 4) (x : Lines) : cmdOp (commandWord op x) = op :=
  (eq_commandWord_iff.mp rfl).2.1

@[simp] theorem cmdPayload_commandWord (op : BitVec 4) (x : Lines) : cmdPayload (commandWord op x) = x :=
  (eq_commandWord_iff.mp rfl).2.2

/-! ### Decoding -/

theorem decode_encode (i : Instr) : decode (encode i) = .ok i := by
  cases i <;> simp [encode, decode]

/-- R58: a word that is not illegal is one of the four commands. -/
theorem exists_eq_encode_of_legal {cmd : Word} (h : illegalWord cmd = false) : ∃ i, cmd = encode i := by
  simp only [illegalWord, Bool.or_eq_false_iff, Bool.and_eq_false_imp, Bool.or_eq_true, beq_iff_eq, bne_eq_false_iff_eq] at h
  obtain ⟨⟨⟨hzero, hhigh⟩, hrsv⟩, hpay⟩ := h
  have hop : cmdOp cmd = 0x1#4 ∨ cmdOp cmd = 0x2#4 ∨ cmdOp cmd = 0x3#4 ∨ cmdOp cmd = 0x4#4 := by
    generalize cmdOp cmd = op at hzero hhigh
    revert op
    decide
  obtain h1 | h2 | h3 | h4 := hop
  · exact ⟨.reset, eq_commandWord_iff.mpr ⟨hrsv, h1, hpay (.inl (.inl h1))⟩⟩
  · exact ⟨.poll (cmdPayload cmd), eq_commandWord_iff.mpr ⟨hrsv, h2, rfl⟩⟩
  · exact ⟨.readLevels, eq_commandWord_iff.mpr ⟨hrsv, h3, hpay (.inl (.inr h3))⟩⟩
  · exact ⟨.readEvents, eq_commandWord_iff.mpr ⟨hrsv, h4, hpay (.inr h4)⟩⟩

/-- R59: the decoder answers a command on that command's word and on no other. -/
theorem decode_eq_ok_iff {cmd : Word} {i : Instr} : decode cmd = .ok i ↔ cmd = encode i := by
  refine ⟨fun h => ?_, fun h => h ▸ decode_encode i⟩
  cases hw : illegalWord cmd with
  | true => exact absurd ((decode_of_illegalWord hw).symm.trans h) nofun
  | false =>
    obtain ⟨j, rfl⟩ := exists_eq_encode_of_legal hw
    exact congrArg encode (Except.ok.inj ((decode_encode j).symm.trans h))

/-- Settles O1: an illegal word is no command's, and a legal one is the encoding of the command it decodes to. -/
theorem decodeAndEncodeAgree : Obligations.DecodeAndEncodeAgree :=
  fun _ _ => decode_eq_ok_iff

/-- Settles O2: the words with one flaw are illegal by R58, and the others are their fields put together. -/
theorem sampleWordsDecode : Obligations.SampleWordsDecode := by
  refine ⟨decode_eq_ok_iff.mpr rfl, decode_eq_ok_iff.mpr rfl, decode_eq_ok_iff.mpr rfl, decode_eq_ok_iff.mpr rfl,
    decode_eq_ok_iff.mpr rfl, fun w hw => decode_of_illegalWord (List.all_eq_true.mp ?_ w hw)⟩
  decide

/-- R58's conditions with the fields read as numbers. -/
theorem illegalWord_iff {cmd : Word} :
    illegalWord cmd = true ↔
      (cmd.toNat / 2 ^ 28 = 0 ∨ 5 ≤ cmd.toNat / 2 ^ 28) ∨ cmd.toNat / 2 ^ 12 % 2 ^ 16 ≠ 0
        ∨ ((cmd.toNat / 2 ^ 28 = 1 ∨ cmd.toNat / 2 ^ 28 = 3 ∨ cmd.toNat / 2 ^ 28 = 4) ∧ cmd.toNat % 2 ^ 12 ≠ 0) := by
  rw [← cmdOp_toNat, ← cmdRsv_toNat, ← cmdPayload_toNat]
  simp [illegalWord, ← BitVec.toNat_inj, BitVec.le_def, or_assoc]

/-! ### The step that takes a command word -/

theorem step_of_decode_ok {s : State} {cmd : Word} {rest : List HostInput} {i : Instr}
    (hi : s.inbox = .command cmd :: rest) (hd : decode cmd = .ok i) : step s = exec i (s.setInbox rest) := by
  rw [step_of_cons hi]
  simp only [inputRequest, wordRequest, hd]

/-- Settles O4: the request of a word that decodes is to run it. -/
theorem stepRunsTheDecodedCommand : Obligations.StepRunsTheDecodedCommand :=
  fun _ _ _ _ => step_of_decode_ok

/-- R102, R131: an illegal word's step on a running block. -/
theorem step_of_illegalWord {s : State} {cmd : Word} {rest : List HostInput} (hf : s.fault = false)
    (hi : s.inbox = .command cmd :: rest) (hw : illegalWord cmd = true) :
    step s = .next ((s.setInbox rest).setFault cmd) := by
  rw [step_of_cons hi, inputRequest_of_illegalWord hw]
  exact ifRunning_of_running _ hf

/-- Settles O3: R58's conditions are the model's check, and a word that passes it is a command's encoding. -/
theorem illegalWordsAreExactlyThose : Obligations.IllegalWordsAreExactlyThose := by
  intro s cmd rest hf hi
  refine ⟨fun h => step_of_illegalWord hf hi (illegalWord_iff.mpr h), fun h => ?_⟩
  obtain ⟨i, hcmd⟩ := exists_eq_encode_of_legal (Bool.eq_false_iff.mpr (h ∘ illegalWord_iff.mp))
  exact ⟨i, hcmd, step_of_decode_ok hi (decode_eq_ok_iff.mpr hcmd)⟩

end Sys2Proof.Machine
end

section
/-! SUPPORT. The event word's fields and the output ports (spec/30_encoding.md R55, R56, R57, R61; spec/60_exceptions.md R134). -/

namespace Sys2Proof.Machine

/-! ### The event word (R55, R56) -/

theorem Edge.code_toNat_ne_three (e : Edge) : e.code.toNat ≠ 3 := by
  cases e <;> decide

theorem Dir.code_toNat_ne_three (d : Dir) : d.code.toNat ≠ 3 := by
  cases d <;> decide

@[simp] theorem Edge.ofCode_code (e : Edge) : Edge.ofCode e.code = some e := by
  cases e <;> rfl

@[simp] theorem Dir.ofCode_code (d : Dir) : Dir.ofCode d.code = some d := by
  cases d <;> rfl

/-- The event word's field of switch `i` holds the code of its edge register. -/
@[simp] theorem eventWordEdge_eventWord (s : State) (i : Fin 4) :
    eventWordEdge (eventWord s) i = s.switches[i].edge.code := by
  rw [← codes4_field (fun i => s.switches[i].edge.code) i, eventWordEdge]
  refine BitVec.eq_of_getLsbD_eq fun k hk => ?_
  rw [BitVec.getLsbD_extractLsb', BitVec.getLsbD_extractLsb', eventWord_getLsbD, if_pos (by omega)]

/-- The event word's field of encoder `j` holds the code of its event register. -/
@[simp] theorem eventWordDir_eventWord (s : State) (j : Fin 4) :
    eventWordDir (eventWord s) j = s.encoders[j].evt.code := by
  rw [← codes4_field (fun j => s.encoders[j].evt.code) j, eventWordDir]
  refine BitVec.eq_of_getLsbD_eq fun k hk => ?_
  rw [BitVec.getLsbD_extractLsb', BitVec.getLsbD_extractLsb', eventWord_getLsbD, if_neg (by omega),
    Nat.add_assoc, Nat.add_sub_cancel_left]

/-- Settles O42: each field holds its register's code, and every code reads back. -/
theorem eventWordReadsBack : Obligations.EventWordReadsBack := fun s i => by
  rw [eventWordEdge_eventWord, eventWordDir_eventWord]
  exact ⟨Edge.ofCode_code _, Dir.ofCode_code _⟩

theorem toNat_extractLsb'_two (w : Word) (k : Nat) : (w.extractLsb' k 2).toNat = w.toNat / 2 ^ k % 4 := by
  rw [BitVec.extractLsb'_toNat, Nat.shiftRight_eq_div_pow]

/-- R56: none of the event word's eight fields is code 11. -/
theorem eventWord_field_ne_three (s : State) {k : Nat} (hk : k < 8) : (eventWord s).toNat / 2 ^ (2 * k) % 4 ≠ 3 := by
  rw [← toNat_extractLsb'_two]
  by_cases h4 : k < 4
  · have hfield : (eventWord s).extractLsb' (2 * k) 2 = s.switches[k].edge.code := eventWordEdge_eventWord s ⟨k, h4⟩
    rw [hfield]
    exact Edge.code_toNat_ne_three _
  · have hfield : (eventWord s).extractLsb' (8 + 2 * (k - 4)) 2 = s.encoders[k - 4].evt.code :=
      eventWordDir_eventWord s ⟨k - 4, by omega⟩
    rw [show 2 * k = 8 + 2 * (k - 4) by omega, hfield]
    exact Dir.code_toNat_ne_three _

/-- R57: READ_EVENTS and POLL respond with an event word. -/
theorem response_eq_eventWord {s t : State} (h : exec .readEvents s = .next t ∨ ∃ x, exec (.poll x) s = .next t) :
    ∃ u, t.response = some (eventWord u) := by
  obtain h | ⟨x, h⟩ := h
  · obtain ⟨-, rfl⟩ := complete_eq_next_iff.mp h
    exact ⟨s, rfl⟩
  · obtain ⟨-, rfl⟩ := complete_eq_next_iff.mp h
    exact ⟨pollUnits x s, rfl⟩

/-- Settles O41: the codes by definition, and the responses' fields as fields of an event word. -/
theorem eventCodeElevenNeverAppears : Obligations.EventCodeElevenNeverAppears := by
  refine ⟨rfl, rfl, rfl, rfl, rfl, rfl, rfl, rfl, fun s t w hexec hw k hk => ?_⟩
  obtain ⟨u, hu⟩ := response_eq_eventWord hexec
  obtain rfl := Option.some.inj (hu.symm.trans hw)
  exact eventWord_field_ne_three u hk

/-! ### The ports (R61) -/

/-- A vector's own width read back from the word it was zero-extended to. -/
theorem extractLsb'_setWidth_of_le {n : Nat} (hn : n ≤ 32) (x : BitVec n) : (x.setWidth 32).extractLsb' 0 n = x := by
  rw [← BitVec.setWidth_eq_extractLsb' hn, BitVec.setWidth_setWidth_of_le x hn, BitVec.setWidth_eq]

theorem levelPort_eq (s : State) : levelPort s = stableLevels s :=
  extractLsb'_setWidth_of_le (by decide) (stableLevels s)

theorem levelPort_setWidth (s : State) : (levelPort s).setWidth 32 = levelWord s :=
  congrArg (BitVec.setWidth 32) (levelPort_eq s)

theorem eventsPort_setWidth (s : State) : (eventsPort s).setWidth 32 = eventWord s :=
  congrArg (BitVec.setWidth 32) (extractLsb'_setWidth_of_le (by decide) _)

/-- A command completes on a running block and leaves it running (R132). -/
theorem exec_of_running {s : State} (i : Instr) (h : s.fault = false) : ∃ t, exec i s = .next t ∧ t.fault = false := by
  cases i with
  | reset => exact ⟨_, exec_reset_of_running h, h⟩
  | poll x => exact ⟨_, exec_poll_of_running x h, h⟩
  | readLevels => exact ⟨_, complete_of_running id levelWord h, h⟩
  | readEvents => exact ⟨_, complete_of_running id eventWord h, h⟩

section PortSteps

variable {s : State} {raw : Lines} {rest : List HostInput}

/-- `rst` wins over a simultaneous `poll` (R134). -/
theorem step_of_rst {poll : Bool} (hi : s.inbox = .ports raw poll true :: rest) :
    step s = exec .reset (s.setInbox rest) :=
  step_of_cons hi

theorem step_of_poll_pulse (hi : s.inbox = .ports raw true false :: rest) :
    step s = exec (.poll raw) (s.setInbox rest) :=
  step_of_cons hi

theorem step_of_idle_ports (hf : s.fault = false) (hi : s.inbox = .ports raw false false :: rest) :
    step s = .next (s.setInbox rest) :=
  (step_of_cons hi).trans (ifRunning_of_running _ hf)

/-- The port view has no illegal commands (R61). -/
theorem step_of_ports_keeps_running {poll rst : Bool} (hf : s.fault = false) (hi : s.inbox = .ports raw poll rst :: rest) :
    ∃ t, step s = .next t ∧ t.fault = false := by
  cases rst with
  | true => exact step_of_rst hi ▸ exec_of_running .reset hf
  | false =>
    cases poll with
    | true => exact step_of_poll_pulse hi ▸ exec_of_running (.poll raw) hf
    | false => exact ⟨_, step_of_idle_ports hf hi, hf⟩

end PortSteps

/-- Settles O5: the four samplings' steps, and the reads' words as the ports' bits. -/
theorem portActionsAreCommands : Obligations.PortActionsAreCommands :=
  ⟨fun _ _ _ _ => step_of_rst, fun _ _ _ => step_of_poll_pulse, fun _ _ _ => step_of_idle_ports,
    fun _ _ _ _ _ => step_of_ports_keeps_running,
    fun s hf => ⟨⟨_, complete_of_running id levelWord hf, (levelPort_setWidth s).symm⟩,
      ⟨_, complete_of_running id eventWord hf, (eventsPort_setWidth s).symm⟩⟩⟩

end Sys2Proof.Machine
end

section
/-! SUPPORT. Reading a command's text (spec/30_encoding.md R60): a line's parts, the digits of an operand, and the field form. -/

namespace Sys2Proof.Machine

/-! ### The parts of a line -/

/-- Characters other than spaces join the first part. -/
theorem splitSpaces_append {w : List Char} (hw : ' ' ∉ w) (cs : List Char) :
    splitSpaces (w ++ cs) = (w ++ (splitSpaces cs).1, (splitSpaces cs).2) := by
  induction w with
  | nil => rfl
  | cons c w ih =>
    obtain ⟨hc, hw⟩ := not_or.mp (List.mem_cons.not.mp hw)
    simp only [List.cons_append, splitSpaces, ih hw, if_neg (Ne.symm hc)]

/-- A part of a line: some characters, none of them a space. -/
abbrev IsPart (w : List Char) : Prop := w ≠ [] ∧ ' ' ∉ w

theorem lineParts_append_space {w : List Char} (hw : IsPart w) (cs : List Char) :
    lineParts (w ++ ' ' :: cs) = w :: lineParts cs := by
  obtain ⟨hne, hspace⟩ := hw
  rw [lineParts, splitSpaces_append hspace]
  simp [splitSpaces, lineParts, hne]

theorem lineParts_part {w : List Char} (hw : IsPart w) : lineParts w = [w] := by
  obtain ⟨hne, hspace⟩ := hw
  have hsplit := splitSpaces_append hspace []
  rw [List.append_nil] at hsplit
  simp [lineParts, hsplit, splitSpaces, hne]

theorem isPart_pollName : IsPart pollName := by decide

/-- `POLL <s>` is POLL of the operand that `<s>` spells. -/
theorem parseLine_poll {arg : List Char} (harg : IsPart arg) :
    parseLine (pollName ++ ' ' :: arg) = (readSample arg).map .poll := by
  rw [parseLine, lineParts_append_space isPart_pollName, lineParts_part harg]
  exact if_pos rfl

/-- POLL with three parts is the field form. -/
theorem parseLine_poll_fields {psw pa pb : List Char} (hsw : IsPart psw) (ha : IsPart pa) (hb : IsPart pb) :
    parseLine (pollName ++ ' ' :: (psw ++ ' ' :: (pa ++ ' ' :: pb))) = parseFields psw pa pb := by
  rw [parseLine, lineParts_append_space isPart_pollName, lineParts_append_space hsw, lineParts_append_space ha,
    lineParts_part hb]
  exact if_pos rfl

/-! ### Digits -/

theorem fitsBits_toNat {n : Nat} (x : BitVec n) : fitsBits n (some x.toNat) = some x := by
  simp [fitsBits, x.isLt]

theorem digitValue_hexDigit {n : Nat} (hn : n < 16) : digitValue 16 (hexDigit n) = some n := by
  interval_cases n <;> rfl

theorem space_ne_hexDigit {n : Nat} (hn : n < 16) : ' ' ≠ hexDigit n := by
  interval_cases n <;> decide

theorem space_notMem_binaryDigits (k : Nat) (v : BitVec k) : ' ' ∉ binaryDigits k v := by
  induction k with
  | zero => exact List.not_mem_nil
  | succ k ih =>
    refine List.mem_cons.not.mpr (not_or.mpr ⟨?_, ih _⟩)
    cases v.getLsbD k <;> decide

/-- A vector's value is its top bit's weight and the value of the bits below. -/
theorem toNat_eq_top_add {k : Nat} (v : BitVec (k + 1)) :
    v.toNat = (v.getLsbD k).toNat * 2 ^ k + (v.setWidth k).toNat := by
  rw [← Nat.shiftLeft_eq, ← BitVec.toNat_cons', ← BitVec.setWidth_succ, BitVec.setWidth_eq]

theorem digitValue_bit (b : Bool) : digitValue 2 (if b then '1' else '0') = some b.toNat := by
  cases b <;> rfl

theorem readDigits_binaryDigits (k acc : Nat) (v : BitVec k) :
    readDigits 2 acc (binaryDigits k v) = some (acc * 2 ^ k + v.toNat) := by
  induction k generalizing acc with
  | zero => simp [binaryDigits, readDigits, BitVec.of_length_zero]
  | succ k ih =>
    simp only [binaryDigits, readDigits, digitValue_bit, ih]
    rw [toNat_eq_top_add v]
    ring_nf

/-- At least one bit, written in binary, reads back. -/
theorem readBinary_binaryDigits {k : Nat} (v : BitVec (k + 1)) :
    readBinary (k + 1) (['0', 'b'] ++ binaryDigits (k + 1) v) = some v := by
  have hread := readDigits_binaryDigits (k + 1) 0 v
  rw [Nat.zero_mul, Nat.zero_add] at hread
  exact (congrArg (fitsBits (k + 1)) hread).trans (fitsBits_toNat v)

theorem readSample_binaryDigits (x : Lines) : readSample (['0', 'b'] ++ binaryDigits 12 x) = some x :=
  readBinary_binaryDigits x

/-- Three hexadecimal digits spell a number below 16³. -/
theorem readDigits_hexDigits {n : Nat} (hn : n < 16 ^ 3) :
    readDigits 16 0 [hexDigit (n / 256), hexDigit (n / 16 % 16), hexDigit (n % 16)] = some n := by
  have h2 : n / 256 < 16 := by omega
  have h1 : n / 16 % 16 < 16 := by omega
  have h0 : n % 16 < 16 := by omega
  simp only [readDigits, digitValue_hexDigit h2, digitValue_hexDigit h1, digitValue_hexDigit h0, Option.some.injEq]
  omega

theorem readSample_hexDigits (x : Lines) :
    readSample ['0', 'x', hexDigit (x.toNat / 256), hexDigit (x.toNat / 16 % 16), hexDigit (x.toNat % 16)] = some x :=
  (congrArg (fitsBits 12) (readDigits_hexDigits x.isLt)).trans (fitsBits_toNat x)

/-! ### Commands -/

/-- A part that begins with `0x` or `0b` and goes on without a space. -/
theorem isPart_of_digits {c : Char} {ds : List Char} (hc : ' ' ≠ c) (hds : ' ' ∉ ds) : IsPart ('0' :: c :: ds) :=
  ⟨List.cons_ne_nil _ _, by simp [hc, hds]⟩

theorem parseLine_commandText (i : Instr) : parseLine (commandText i) = some i := by
  cases i with
  | reset => decide
  | readLevels => decide
  | readEvents => decide
  | poll x =>
    have h2 := space_ne_hexDigit (show x.toNat / 256 < 16 by omega)
    have h1 := space_ne_hexDigit (show x.toNat / 16 % 16 < 16 by omega)
    have h0 := space_ne_hexDigit (show x.toNat % 16 < 16 by omega)
    refine (parseLine_poll (isPart_of_digits (by decide) ?_)).trans (congrArg (Option.map Instr.poll) (readSample_hexDigits x))
    simp [h2, h1, h0]

theorem parseLine_pollBinaryText (x : Lines) : parseLine (pollBinaryText x) = some (.poll x) :=
  (parseLine_poll (isPart_of_digits (by decide) (space_notMem_binaryDigits 12 x))).trans
    (congrArg (Option.map Instr.poll) (readSample_binaryDigits x))

/-- Settles O46: a line splits into POLL and its operand, whose digits add up to the sample. -/
theorem textOfACommandParses : Obligations.TextOfACommandParses :=
  ⟨parseLine_commandText, parseLine_pollBinaryText⟩

/-! ### The field form -/

theorem fieldSample_toNat (sw a b : BitVec 4) :
    (fieldSample sw a b).toNat = sw.toNat + a.toNat * 2 ^ 4 + b.toNat * 2 ^ 8 := by
  have hwide : ∀ v : BitVec 4, (v.setWidth 12).toNat = v.toNat := fun v => BitVec.toNat_setWidth_of_le (by decide)
  have hlow : (sw.setWidth 12 ||| a.setWidth 12 <<< 4).toNat = sw.toNat + a.toNat * 2 ^ 4 := by
    rw [toNat_or_shiftLeft _ _ (by rw [hwide]; omega) (by rw [hwide]; omega), hwide, hwide]
  rw [fieldSample, toNat_or_shiftLeft _ _ (by rw [hlow]; omega) (by rw [hwide]; omega), hlow, hwide]

theorem afterLead_append (lead cs : List Char) : afterLead lead (lead ++ cs) = some cs := by
  induction lead with
  | nil => rfl
  | cons c lead ih => exact (if_pos rfl).trans ih

/-- One group of the field form's text. -/
def fieldPart (lead : List Char) (v : BitVec 4) : List Char := lead ++ (['0', 'b'] ++ binaryDigits 4 v)

theorem isPart_fieldPart {lead : List Char} (hlead : ' ' ∉ lead) (v : BitVec 4) : IsPart (fieldPart lead v) := by
  simp [IsPart, fieldPart, hlead, space_notMem_binaryDigits]

@[simp] theorem readField_fieldPart (lead : List Char) (v : BitVec 4) : readField lead (fieldPart lead v) = some v := by
  rw [readField, fieldPart, afterLead_append]
  exact readBinary_binaryDigits v

theorem pollFieldText_eq (sw a b : BitVec 4) :
    pollFieldText sw a b
      = pollName ++ ' ' :: (fieldPart ['s', 'w', '='] sw ++ ' ' :: (fieldPart ['a', '='] a ++ ' ' :: fieldPart ['b', '='] b)) := by
  simp [pollFieldText, fieldPart]

theorem parseLine_pollFieldText (sw a b : BitVec 4) :
    parseLine (pollFieldText sw a b) = some (.poll (fieldSample sw a b)) := by
  rw [pollFieldText_eq, parseLine_poll_fields (isPart_fieldPart (by decide) sw) (isPart_fieldPart (by decide) a)
    (isPart_fieldPart (by decide) b)]
  simp [parseFields]

/-- Settles O47: each group reads back, and the three lie in different bits of the sample. -/
theorem fieldFormIsPoll : Obligations.FieldFormIsPoll :=
  ⟨fun sw a b => ⟨fieldSample sw a b, parseLine_pollFieldText sw a b, fieldSample_toNat sw a b⟩, by decide⟩

end Sys2Proof.Machine
end

section
/-! SUPPORT. When the debounce primitive flips its level (spec/40_debounce.md R71, R72, R73, R74). -/

namespace Sys2Proof.Machine

/-! ### The primitive -/

/-- `ones(N)` and 0 in one spelling: the window whose every sample is `v`. -/
theorem eq_uniform_iff {n : Nat} (h : BitVec n) (v : Bool) :
    h = (if v then BitVec.allOnes n else 0#n) ↔ ∀ k < n, h.getLsbD k = v := by
  cases v
  · exact eq_zero_iff h
  · exact eq_allOnes_iff h

/-- R71: N equal samples decide the level. -/
theorem debounce_stable_of_uniform {n : Nat} (hn : 0 < n) {h : BitVec n} {s r v : Bool}
    (hv : (debounce n h s r).1 = if v then BitVec.allOnes n else 0#n) : (debounce n h s r).2.1 = v := by
  rw [debounce_stable, hv]
  cases v
  · exact (if_neg (allOnes_ne_zero_of_pos hn).symm).trans (if_pos rfl)
  · exact if_pos rfl

/-- R72: only a window uniform at the other level takes the level there. -/
theorem debounce_uniform_of_flip {n : Nat} {h : BitVec n} {s r : Bool} (hflip : (debounce n h s r).2.1 = !s) :
    (debounce n h s r).1 = if !s then BitVec.allOnes n else 0#n := by
  rw [debounce_stable] at hflip
  split at hflip
  case isTrue hones => rwa [← hflip]
  case isFalse =>
    split at hflip
    case isTrue hzero => rwa [← hflip]
    case isFalse => exact absurd hflip.symm (Bool.not_ne_self s)

theorem debounce_flips_iff {n : Nat} (hn : 0 < n) {h : BitVec n} {s r : Bool} :
    (debounce n h s r).2.1 = !s ↔ ∀ k < n, (debounce n h s r).1.getLsbD k = !s :=
  ⟨fun hflip => (eq_uniform_iff _ _).mp (debounce_uniform_of_flip hflip),
    fun hbits => debounce_stable_of_uniform hn ((eq_uniform_iff _ _).mpr hbits)⟩

/-- Settles O16: a flip needs every sample at the other level, so a mixed window holds. -/
theorem debounceShiftsAndDecides : Obligations.DebounceShiftsAndDecides := by
  refine ⟨fun n h s r hn => ⟨fun k => debounce_window_getLsbD h s r,
    fun hones => debounce_stable_of_uniform hn ((eq_uniform_iff _ true).mpr hones),
    fun hzeros => debounce_stable_of_uniform hn ((eq_uniform_iff _ false).mpr hzeros), ?_,
    edgeOf_eq_rising_iff, edgeOf_eq_falling_iff, edgeOf_eq_none_iff⟩, by decide⟩
  rintro ⟨k, hk, hone⟩ ⟨l, hl, hzero⟩
  by_contra hheld
  have hbits := (debounce_flips_iff hn).mp (Bool.eq_not.mpr hheld)
  exact Bool.noConfusion (hone.symm.trans ((hbits k hk).trans ((hbits l hl).symm.trans hzero)))

/-- Settles O17: a change is a flip, whose window is uniform; the example's four ticks are computed. -/
theorem stableLevelHoldsUnlessUniform : Obligations.StableLevelHoldsUnlessUniform := by
  refine ⟨fun n h s r hchange => ?_, fun n h s r hn hagree => ?_, by decide⟩
  · have huniform := debounce_uniform_of_flip (Bool.eq_not.mpr hchange)
    cases s
    · exact .inl huniform
    · exact .inr huniform
  · have hheld := debounce_stable_of_uniform hn hagree
    exact ⟨hheld, by rw [debounce_edge, hheld, edgeOf_self]⟩

/-! ### One line -/

/-- Settles O18: a line's edge is `edgeOf` of its level before and after the tick. -/
theorem edgeNamesTheChange : Obligations.EdgeNamesTheChange :=
  fun _ _ _ => ⟨edgeOf_eq_rising_iff, edgeOf_eq_falling_iff, edgeOf_eq_none_iff.trans eq_comm⟩

theorem lineWindow_eq_uniform_iff {n : Nat} (d : Debouncer) (v : Bool) :
    lineWindow n d = (if v then BitVec.allOnes n else 0#n) ↔ ∀ k < n, d.hist.getLsbD k = v :=
  (eq_uniform_iff _ v).trans (forall₂_congr fun _ hk => by rw [lineWindow_getLsbD d hk])

/-- R71 on a line's registers: the samples move one place up and the new one comes to bit 0. -/
theorem sampleLine_hist_getLsbD {n k : Nat} (hn : n ≤ 8) (d : Debouncer) (r : Bool) (hk : k < n) :
    (sampleLine n d r).1.hist.getLsbD k = if k = 0 then r else d.hist.getLsbD (k - 1) := by
  rw [← lineWindow_getLsbD _ hk, lineWindow_sampleLine hn, debounce_window_getLsbD _ _ _ hk,
    lineWindow_getLsbD d (by omega)]

theorem sampleLine_flips_iff {n : Nat} (hn : windowLengthOk n = true) (d : Debouncer) (r : Bool) :
    (sampleLine n d r).1.stable = (!d.stable) ↔ ∀ k < n, (sampleLine n d r).1.hist.getLsbD k = !d.stable := by
  obtain ⟨hpos, hle⟩ := windowLengthOk_iff.mp hn
  rw [← lineWindow_eq_uniform_iff, lineWindow_sampleLine hle, eq_uniform_iff, sampleLine_stable, debounce_flips_iff hpos]

/-- R34: a line's window is never uniform at the level the line does not hold. -/
theorem not_all_flipped_of_lineOk {n : Nat} {d : Debouncer} (h : LineOk n d) :
    ¬ ∀ k < n, d.hist.getLsbD k = !d.stable := by
  obtain ⟨-, hones, hzero⟩ := h
  intro hbits
  have huniform := (lineWindow_eq_uniform_iff d _).mpr hbits
  cases hs : d.stable <;> rw [hs] at huniform
  · exact Bool.false_ne_true (hs.symm.trans (hones huniform))
  · exact Bool.false_ne_true ((hzero huniform).symm.trans hs)

/-- With a window of one sample the level is that sample (R34). -/
theorem stable_eq_of_lineOk_one {d : Debouncer} (h : LineOk 1 d) : d.stable = d.hist.getLsbD 0 := by
  by_contra hne
  refine not_all_flipped_of_lineOk h fun k hk => ?_
  rw [Nat.lt_one_iff.mp hk]
  exact Bool.eq_not.mpr (Ne.symm hne)

/-- Settles O19: before and after the tick the level is the window's one sample, and the new sample is `r`. -/
theorem windowOfOneFollowsTheRawLevel : Obligations.WindowOfOneFollowsTheRawLevel := by
  intro d r hok
  have hbit : (sampleLine 1 d r).1.hist.getLsbD 0 = r := sampleLine_hist_getLsbD (by decide) d r Nat.one_pos
  have hlevel : (sampleLine 1 d r).1.stable = r :=
    (stable_eq_of_lineOk_one (lineOk_sampleLine rfl d r)).trans hbit
  refine ⟨BitVec.eq_of_getLsbD_eq fun k hk => ?_, hlevel, ?_⟩
  · obtain rfl := Nat.lt_one_iff.mp hk
    rw [lineWindow_getLsbD _ hk, hbit, BitVec.getLsbD_ofBool]
    simp
  · rw [sampleLine_edge, hlevel, ← stable_eq_of_lineOk_one hok, Ne, edgeOf_eq_none_iff, eq_comm]

end Sys2Proof.Machine
end

section
/-! SUPPORT. One line fed samples in order: its window as the latest samples, the runs that flip its level and the edges they
give (spec/40_debounce.md R75, R76, R77, R78). -/

namespace Sys2Proof.Machine

/-! ### Runs of equal samples -/

theorem noRunOf_of_infix {n : Nat} {v : Bool} {l l' : List Bool} (h : NoRunOf n v l) (hl : l' <:+: l) : NoRunOf n v l' :=
  fun hrun => h (hrun.trans hl)

/-- At most `n` samples are too few for a run, unless they are the run. -/
theorem noRunOf_of_length_le {n : Nat} {v : Bool} {l : List Bool} (hlen : l.length ≤ n) (hne : l ≠ List.replicate n v) :
    NoRunOf n v l :=
  fun hrun => hne (hrun.eq_of_length_le (by rwa [List.length_replicate])).symm

theorem noRunOf_replicate_not {n : Nat} (hn : 0 < n) (v : Bool) (k : Nat) : NoRunOf n (!v) (List.replicate k v) := fun hrun =>
  Bool.not_ne_self v (List.eq_of_mem_replicate (hrun.subset (List.mem_replicate.mpr ⟨hn.ne', rfl⟩)))

/-- R77: a sample of the other level parts the runs before it from those after it. -/
theorem noRunOf_append_cons {n : Nat} (hn : 0 < n) {v : Bool} {xs ys : List Bool} (hxs : NoRunOf n (!v) xs)
    (hys : NoRunOf n (!v) ys) : NoRunOf n (!v) (xs ++ v :: ys) := by
  have hne : v ∉ List.replicate n (!v) := fun hmem => Bool.not_ne_self v (List.eq_of_mem_replicate hmem).symm
  intro hrun
  obtain hrun | hrun | ⟨l₁, l₂, hsplit, hl₁, hl₂⟩ := List.infix_append_iff.mp hrun
  · exact hxs hrun
  · obtain hprefix | hrun := List.infix_cons_iff.mp hrun
    · obtain hnil | ⟨t, hcons, -⟩ := List.prefix_cons_iff.mp hprefix
      · exact hn.ne' ((List.replicate_eq_nil_iff _).mp hnil)
      · exact hne (hcons ▸ List.mem_cons_self)
    · exact hys hrun
  · obtain rfl | ⟨t, rfl, -⟩ := List.prefix_cons_iff.mp hl₂
    · exact hxs (hsplit ▸ (List.append_nil l₁).symm ▸ hl₁.isInfix)
    · exact hne (hsplit ▸ List.mem_append_right l₁ List.mem_cons_self)

/-! ### The window as samples -/

theorem windowSamples_length (n : Nat) (d : Debouncer) : (windowSamples n d).length = n := by
  simp [windowSamples]

theorem windowSamples_eq_replicate_iff {n : Nat} {d : Debouncer} {v : Bool} :
    windowSamples n d = List.replicate n v ↔ ∀ k < n, d.hist.getLsbD k = v := by
  simp [windowSamples, List.eq_replicate_iff]

/-- R71: a tick drops the oldest sample and appends the new one. -/
theorem windowSamples_sampleLine {n : Nat} (hn : windowLengthOk n = true) (d : Debouncer) (r : Bool) :
    d.hist.getLsbD (n - 1) :: windowSamples n (sampleLine n d r).1 = windowSamples n d ++ [r] := by
  obtain ⟨hpos, hle⟩ := windowLengthOk_iff.mp hn
  obtain ⟨m, rfl⟩ := Nat.exists_eq_add_one.mpr hpos
  have hshift : (List.range m).map (fun k => (sampleLine (m + 1) d r).1.hist.getLsbD (k + 1))
      = (List.range m).map fun k => d.hist.getLsbD k :=
    List.map_congr_left fun k hk => by
      rw [sampleLine_hist_getLsbD hle d r (Nat.succ_lt_succ (List.mem_range.mp hk)), if_neg k.succ_ne_zero]
      rfl
  have hnew : windowSamples (m + 1) (sampleLine (m + 1) d r).1 = ((List.range m).map fun k => d.hist.getLsbD k).reverse ++ [r] := by
    rw [windowSamples, List.range_succ_eq_map, List.map_cons, List.map_map, List.reverse_cons,
      sampleLine_hist_getLsbD hle d r hpos, if_pos rfl, ← hshift]
    rfl
  have hold : windowSamples (m + 1) d = d.hist.getLsbD m :: ((List.range m).map fun k => d.hist.getLsbD k).reverse := by
    rw [windowSamples, List.range_succ, List.map_append, List.reverse_append]
    rfl
  rw [hnew, hold]
  rfl

/-! ### Runs of one line -/

@[simp] theorem lineRun_nil (n : Nat) (d : Debouncer) : lineRun n d [] = (d, []) := rfl

@[simp] theorem lineRun_cons (n : Nat) (d : Debouncer) (r : Bool) (rs : List Bool) :
    lineRun n d (r :: rs)
      = ((lineRun n (sampleLine n d r).1 rs).1, (sampleLine n d r).2 :: (lineRun n (sampleLine n d r).1 rs).2) := rfl

theorem lineRun_append (n : Nat) (d : Debouncer) (rs qs : List Bool) :
    lineRun n d (rs ++ qs)
      = ((lineRun n (lineRun n d rs).1 qs).1, (lineRun n d rs).2 ++ (lineRun n (lineRun n d rs).1 qs).2) := by
  induction rs generalizing d with
  | nil => rfl
  | cons r rs ih => simp only [List.cons_append, lineRun_cons, ih]

/-- R34: a run that fills a line's window is of the level the line holds. -/
theorem noRunOf_windowSamples {n : Nat} {d : Debouncer} (hok : LineOk n d) : NoRunOf n (!d.stable) (windowSamples n d) :=
  noRunOf_of_length_le (windowSamples_length n d).le
    fun hrun => not_all_flipped_of_lineOk hok (windowSamples_eq_replicate_iff.mp hrun)

/-- R33: a line at power-on holds its window's length of initial samples. -/
theorem windowSamples_initialLine {n : Nat} (hn : n ≤ 8) (v : Bool) :
    windowSamples n (initialLine n v) = List.replicate n v :=
  windowSamples_eq_replicate_iff.mpr fun k hk => by
    rw [initialLine_hist, uniformWindow_getLsbD]
    simp [hk, hk.trans_le hn]

section Legal

variable {n : Nat} (hn : windowLengthOk n = true)
include hn

/-- A line's window ends as the latest samples of those it held and those it took. -/
theorem windowSamples_lineRun_suffix (d : Debouncer) (rs : List Bool) :
    windowSamples n (lineRun n d rs).1 <:+ windowSamples n d ++ rs := by
  induction rs generalizing d with
  | nil => exact (List.append_nil _).symm ▸ List.suffix_rfl
  | cons r rs ih =>
    refine (ih (sampleLine n d r).1).trans ⟨[d.hist.getLsbD (n - 1)], ?_⟩
    rw [← List.append_assoc, List.singleton_append, windowSamples_sampleLine hn, List.append_assoc, List.singleton_append]

/-- R76: the level holds, without an edge, while no run of N samples of the other level comes by. -/
theorem lineRun_holds (d : Debouncer) (rs : List Bool) (h : NoRunOf n (!d.stable) (windowSamples n d ++ rs)) :
    (lineRun n d rs).1.stable = d.stable ∧ (lineRun n d rs).2 = List.replicate rs.length .none := by
  induction rs generalizing d with
  | nil => exact ⟨rfl, rfl⟩
  | cons r rs ih =>
    rw [List.append_cons, ← windowSamples_sampleLine hn, List.cons_append] at h
    have hrest := noRunOf_of_infix h (List.suffix_cons _ _).isInfix
    have hheld : (sampleLine n d r).1.stable = d.stable := by
      by_contra hflip
      have hwindow := windowSamples_eq_replicate_iff.mpr ((sampleLine_flips_iff hn d r).mp (Bool.eq_not.mpr hflip))
      exact hrest (hwindow ▸ (List.prefix_append _ _).isInfix)
    obtain ⟨hstable, hedges⟩ := ih (sampleLine n d r).1 (hheld ▸ hrest)
    exact ⟨hstable.trans hheld, by rw [lineRun_cons, hedges, sampleLine_edge, hheld, edgeOf_self]; rfl⟩

/-- The tick whose window is full of the other level flips the line. -/
theorem sampleLine_edge_of_run {d : Debouncer} {r v : Bool} (hv : d.stable = v)
    (hrun : windowSamples n (sampleLine n d r).1 = List.replicate n (!v)) :
    (sampleLine n d r).2 = if v then .falling else .rising := by
  subst hv
  rw [sampleLine_edge, (sampleLine_flips_iff hn d r).mpr (windowSamples_eq_replicate_iff.mp hrun)]
  cases d.stable <;> rfl

/-- R75: where no earlier run was long enough, the N-th consecutive sample of the other level gives the edge. -/
theorem lineRun_edges_of_first_run (d : Debouncer) (pre : List Bool)
    (h : NoRunOf n (!d.stable) (windowSamples n d ++ (pre ++ List.replicate (n - 1) (!d.stable)))) :
    (lineRun n d (pre ++ List.replicate n (!d.stable))).2
      = List.replicate (pre.length + (n - 1)) .none ++ [if d.stable then .falling else .rising] := by
  obtain ⟨hpos, -⟩ := windowLengthOk_iff.mp hn
  obtain ⟨hheld, hedges⟩ := lineRun_holds hn d _ h
  have hsamples : pre ++ List.replicate n (!d.stable) = (pre ++ List.replicate (n - 1) (!d.stable)) ++ [!d.stable] := by
    rw [List.append_assoc, ← List.replicate_succ', Nat.sub_add_cancel hpos]
  have hwindow : windowSamples n (lineRun n d (pre ++ List.replicate n (!d.stable))).1 = List.replicate n (!d.stable) :=
    (List.suffix_of_suffix_length_le (windowSamples_lineRun_suffix hn d _)
      (List.append_assoc .. ▸ List.suffix_append _ _) (by rw [windowSamples_length, List.length_replicate])).eq_of_length
      (by rw [windowSamples_length, List.length_replicate])
  rw [hsamples, lineRun_append] at hwindow ⊢
  rw [hedges, List.length_append, List.length_replicate]
  exact congrArg (_ ++ [·]) (sampleLine_edge_of_run hn hheld hwindow)

/-- At power-on the window's samples lengthen no run of the other level. -/
theorem noRunOf_initialLine_append {v : Bool} {rs : List Bool} (h : NoRunOf n (!v) rs) :
    NoRunOf n (!v) (windowSamples n (initialLine n v) ++ rs) := by
  obtain ⟨hpos, hle⟩ := windowLengthOk_iff.mp hn
  obtain ⟨m, rfl⟩ := Nat.exists_eq_add_one.mpr hpos
  rw [windowSamples_initialLine hle, List.replicate_succ', List.append_assoc]
  exact noRunOf_append_cons hpos (noRunOf_replicate_not hpos v m) h

/-- R75 for a line with window length `n` and initial level `v`, in its three parts: no edge while the level stays, none
without a full run of the other level, and the first one at the end of such a run. -/
def FirstEdgeOnNthSample (n : Nat) (v : Bool) (d : Debouncer) : Prop :=
  (∀ k : Nat, (lineRun n d (List.replicate k v)).2 = List.replicate k .none)
    ∧ (∀ rs : List Bool, NoRunOf n (!v) rs → (lineRun n d rs).2 = List.replicate rs.length .none)
    ∧ ∀ pre : List Bool, NoRunOf n (!v) (pre ++ List.replicate (n - 1) (!v)) →
        (lineRun n d (pre ++ List.replicate n (!v))).2
          = List.replicate (pre.length + (n - 1)) .none ++ [if v then .falling else .rising]

theorem firstEdgeOnNthSample_initialLine (v : Bool) : FirstEdgeOnNthSample n v (initialLine n v) := by
  have hnone : ∀ rs, NoRunOf n (!v) rs → (lineRun n (initialLine n v) rs).2 = List.replicate rs.length .none :=
    fun rs h => (lineRun_holds hn (initialLine n v) rs (noRunOf_initialLine_append hn h)).2
  refine ⟨fun k => ?_, hnone, fun pre h =>
    lineRun_edges_of_first_run hn (initialLine n v) pre (noRunOf_initialLine_append hn h)⟩
  rw [hnone _ (noRunOf_replicate_not (windowLengthOk_iff.mp hn).1 v k), List.length_replicate]

end Legal

/-- Settles O20: the samples of the window at the start count as the run's first ones. -/
theorem shortRunsNeverFlip : Obligations.ShortRunsNeverFlip := fun _ d rs hn _ h =>
  have ⟨hstable, hedges⟩ := lineRun_holds hn d rs h
  ⟨hstable, fun _ he => List.eq_of_mem_replicate (hedges ▸ he)⟩

/-- Settles O22: the sample back at the held level parts the window from the samples after it. -/
theorem bounceRestartsTheCount : Obligations.BounceRestartsTheCount := by
  intro n d hn hok
  obtain ⟨hpos, -⟩ := windowLengthOk_iff.mp hn
  have hshort : NoRunOf n (!d.stable) (List.replicate (n - 1) (!d.stable)) :=
    noRunOf_of_length_le (by simp) fun h => (Nat.sub_one_lt hpos.ne').ne (by simpa using congrArg List.length h)
  have hedges := lineRun_edges_of_first_run hn d [d.stable] (noRunOf_append_cons hpos (noRunOf_windowSamples hok) hshort)
  rwa [List.length_singleton, Nat.add_sub_cancel' hpos] at hedges

/-! ### The lines at power-on (R33) -/

theorem powerOn_switch_line (p : Params) (i : Fin 4) :
    (State.powerOn p).switches[i].line = initialLine p.nSw (p.initLevels.getLsbD i) :=
  congrArg Switch.line (initialSwitches_getElem p i i.isLt)

theorem powerOn_encoder_a (p : Params) (j : Fin 4) :
    (State.powerOn p).encoders[j].a = initialLine p.nEnc (p.initLevels.getLsbD (4 + j)) :=
  congrArg Encoder.a (initialEncoders_getElem p j j.isLt)

theorem powerOn_encoder_b (p : Params) (j : Fin 4) :
    (State.powerOn p).encoders[j].b = initialLine p.nEnc (p.initLevels.getLsbD (8 + j)) :=
  congrArg Encoder.b (initialEncoders_getElem p j j.isLt)

/-- Settles O21: each of the twelve lines starts with its window full of its initial level. -/
theorem firstEdgeComesOnTheNthSample : Obligations.FirstEdgeComesOnTheNthSample := by
  intro p hp
  obtain ⟨hsw, henc⟩ := Params.wellFormed_iff.mp hp
  exact ⟨fun i => powerOn_switch_line p i ▸ firstEdgeOnNthSample_initialLine hsw _,
    fun j => ⟨powerOn_encoder_a p j ▸ firstEdgeOnNthSample_initialLine henc _,
      powerOn_encoder_b p j ▸ firstEdgeOnNthSample_initialLine henc _⟩⟩

/-! ### Alternation -/

@[simp] theorem alternates_edgeOf_cons (old new : Bool) (es : List Edge) :
    alternates old (edgeOf old new :: es) = alternates new es := by
  cases old <;> cases new <;> rfl

/-- R78: every edge leaves the level the one before it reached. -/
theorem alternates_lineRun (n : Nat) (d : Debouncer) (rs : List Bool) : alternates d.stable (lineRun n d rs).2 = true := by
  induction rs generalizing d with
  | nil => rfl
  | cons r rs ih =>
    rw [lineRun_cons, sampleLine_edge, alternates_edgeOf_cons]
    exact ih _

theorem alternates_lineRun_initialLine (n : Nat) (v : Bool) (rs : List Bool) :
    alternates v (lineRun n (initialLine n v) rs).2 = true :=
  alternates_lineRun n (initialLine n v) rs

/-- Settles O23: a line at power-on holds its INIT_LEVELS bit. -/
theorem edgesOfALineAlternate : Obligations.EdgesOfALineAlternate := by
  refine ⟨alternates_lineRun, fun p i rs => ?_⟩
  rw [powerOn_switch_line, powerOn_encoder_a, powerOn_encoder_b]
  exact ⟨alternates_lineRun_initialLine _ _ rs, alternates_lineRun_initialLine _ _ rs, alternates_lineRun_initialLine _ _ rs⟩

end Sys2Proof.Machine
end

section
/-! SUPPORT. What one POLL and a sequence of POLLs give each switch and each encoder (spec/40_debounce.md R70, R79;
spec/41_rotary.md R94; spec/43_poll.md R110, R112, R115). -/

namespace Sys2Proof.Machine

/-! ### One POLL -/

section OnePoll

variable {s t : State} {x : Lines} (h : exec (.poll x) s = .next t)
include h

theorem exec_poll_switch (i : Fin 4) : t.switches[i] = switchStep s.params s.switches[i] (x.getLsbD i) := by
  obtain ⟨-, rfl⟩ := complete_eq_next_iff.mp h
  exact pollUnits_switch x s i i.isLt

theorem exec_poll_encoder (j : Fin 4) :
    t.encoders[j] = rotaryStep s.params s.encoders[j] (x.getLsbD (4 + j)) (x.getLsbD (8 + j)) := by
  obtain ⟨-, rfl⟩ := complete_eq_next_iff.mp h
  exact pollUnits_encoder x s j j.isLt

end OnePoll

/-- Settles O24: `switchStep` is the primitive on the switch's own registers. -/
theorem pollStepsEverySwitch : Obligations.PollStepsEverySwitch := by
  refine fun s x hf => ⟨_, exec_poll_of_running x hf, fun i => ?_⟩
  rw [exec_poll_switch (exec_poll_of_running x hf) i]
  exact ⟨rfl, rfl, rfl⟩

theorem switchStep_congr {p : Params} {sw sw' : Switch} (hline : sw.line = sw'.line) (r : Bool) :
    switchStep p sw r = switchStep p sw' r := by
  rw [switchStep, hline]
  rfl

theorem rotaryStep_congr {p : Params} {enc enc' : Encoder} (ha : enc.a = enc'.a) (hb : enc.b = enc'.b) (ra rb : Bool) :
    rotaryStep p enc ra rb = rotaryStep p enc' ra rb := by
  rw [rotaryStep, ha, hb]
  rfl

/-- Settles O34: a unit's step reads its own lines and bits, and no event. -/
theorem unitsDoNotInterfere : Obligations.UnitsDoNotInterfere := by
  refine fun s s' t t' x x' hp h h' => ⟨fun i hline hx => ?_, fun j ha hb hxa hxb => ?_⟩
  · rw [exec_poll_switch h, exec_poll_switch h', hp, hx, switchStep_congr hline]
  · rw [exec_poll_encoder h, exec_poll_encoder h', hp, hxa, hxb, rotaryStep_congr ha hb]

/-! ### One unit over many samples -/

/-- One switch fed samples in order. -/
def switchRun (p : Params) (sw : Switch) (rs : List Bool) : Switch := rs.foldl (switchStep p) sw

/-- A switch's line is its line's run, and its edge register holds the run's last edge. -/
theorem switchRun_eq (p : Params) (sw : Switch) (rs : List Bool) :
    switchRun p sw rs = ⟨(lineRun p.nSw sw.line rs).1, (lineRun p.nSw sw.line rs).2.getLastD sw.edge⟩ := by
  induction rs generalizing sw with
  | nil => rfl
  | cons r rs ih =>
    rw [lineRun_cons, List.getLastD_cons]
    exact ih (switchStep p sw r)

/-! ### Sequences of commands -/

theorem runCommands_cons_eq_next_iff {i : Instr} {is : List Instr} {s t : State} :
    runCommands (i :: is) s = .next t ↔ ∃ u, exec i s = .next u ∧ runCommands is u = .next t := by
  rw [runCommands]
  cases exec i s <;> simp

/-- R132: every sequence of commands completes on a running block. -/
theorem runCommands_of_running (is : List Instr) {s : State} (hf : s.fault = false) : ∃ t, runCommands is s = .next t := by
  induction is generalizing s with
  | nil => exact ⟨s, rfl⟩
  | cons i is ih =>
    obtain ⟨u, hexec, hu⟩ := exec_of_running i hf
    obtain ⟨t, hrun⟩ := ih hu
    exact ⟨t, runCommands_cons_eq_next_iff.mpr ⟨u, hexec, hrun⟩⟩

theorem runCommands_polls_switch {xs : List Lines} {s t : State} (h : runCommands (xs.map .poll) s = .next t) (i : Fin 4) :
    t.switches[i] = switchRun s.params s.switches[i] (xs.map fun x => x.getLsbD i) := by
  induction xs generalizing s with
  | nil =>
    cases h
    rfl
  | cons x xs ih =>
    obtain ⟨u, hexec, hrun⟩ := runCommands_cons_eq_next_iff.mp h
    rw [ih hrun, exec_poll_switch hexec, exec_keeps_params hexec]
    rfl

theorem runCommands_polls_encoder {xs : List Lines} {s t : State} (h : runCommands (xs.map .poll) s = .next t) (j : Fin 4) :
    t.encoders[j] = (encoderRun s.params s.encoders[j] (xs.map fun x => (x.getLsbD (4 + j), x.getLsbD (8 + j)))).1 := by
  induction xs generalizing s with
  | nil =>
    cases h
    rfl
  | cons x xs ih =>
    obtain ⟨u, hexec, hrun⟩ := runCommands_cons_eq_next_iff.mp h
    rw [ih hrun, exec_poll_encoder hexec, exec_keeps_params hexec]
    rfl

/-- Settles O35: the sequence completes, and each POLL is one tick of every unit's own run. -/
theorem pollSequencesRunEachLine : Obligations.PollSequencesRunEachLine := by
  intro s xs hf
  obtain ⟨t, hrun⟩ := runCommands_of_running (xs.map .poll) hf
  refine ⟨t, hrun, fun i => ?_, runCommands_polls_encoder hrun⟩
  rw [runCommands_polls_switch hrun, switchRun_eq]

/-- Settles O36: R76 on the switch's own run, whose last edge is in the edge register. -/
theorem bouncingSwitchKeepsItsLevel : Obligations.BouncingSwitchKeepsItsLevel := by
  intro s t x xs i hinv hruns hrun
  obtain ⟨hp, -⟩ := hinv
  obtain ⟨hstable, hedges⟩ := lineRun_holds (Params.wellFormed_iff.mp hp).1 _ _ hruns
  rw [runCommands_polls_switch hrun, switchRun_eq]
  exact ⟨hstable, by rw [hedges, List.map_cons, List.length_cons, List.replicate_succ', List.getLastD_concat]⟩

end Sys2Proof.Machine
end

section
/-! SUPPORT. One tick of an encoder: when it reports an event, and which one (spec/41_rotary.md R86, R87, R88, R90, R91). -/

namespace Sys2Proof.Machine

/-! ### The direction (R86) -/

theorem dirOf_eq_ite (ea : Edge) (bv : Bool) :
    dirOf ea bv = if ea = .rising then (if bv = false then .cw else .ccw) else .none := by
  cases ea <;> cases bv <;> rfl

theorem dirOf_rising (bv : Bool) : dirOf .rising bv = if bv then .ccw else .cw := rfl

theorem viewedB_eq_ite (view : BView) (old new : Bool) : viewedB view old new = if view = .after then new else old := by
  cases view <;> rfl

@[simp] theorem viewedB_before (old new : Bool) : viewedB .before old new = old := rfl

/-- A level of phase B that holds is the viewed one under both settings. -/
@[simp] theorem viewedB_self (view : BView) (level : Bool) : viewedB view level level = level := by
  cases view <;> rfl

/-- Two viewed levels give different directions exactly on a rising edge where they differ. -/
theorem dirOf_ne_dirOf_iff {ea : Edge} {bv bv' : Bool} : dirOf ea bv ≠ dirOf ea bv' ↔ ea = .rising ∧ bv ≠ bv' := by
  cases ea <;> cases bv <;> cases bv' <;> decide

/-! ### The rotary step -/

@[simp] theorem rotaryStep_a (p : Params) (enc : Encoder) (ra rb : Bool) :
    (rotaryStep p enc ra rb).a = (sampleLine p.nEnc enc.a ra).1 := rfl

@[simp] theorem rotaryStep_b (p : Params) (enc : Encoder) (ra rb : Bool) :
    (rotaryStep p enc ra rb).b = (sampleLine p.nEnc enc.b rb).1 := rfl

theorem rotaryStep_evt (p : Params) (enc : Encoder) (ra rb : Bool) :
    (rotaryStep p enc ra rb).evt
      = dirOf (edgeOf enc.a.stable (rotaryStep p enc ra rb).a.stable)
          (viewedB p.encBView enc.b.stable (rotaryStep p enc ra rb).b.stable) := rfl

/-- On a tick where phase A rises, phase B's viewed level is the direction. -/
theorem rotaryStep_evt_of_rise {p : Params} {enc : Encoder} {ra rb : Bool} (hold : enc.a.stable = false)
    (hnew : (rotaryStep p enc ra rb).a.stable = true) :
    (rotaryStep p enc ra rb).evt
      = if viewedB p.encBView enc.b.stable (rotaryStep p enc ra rb).b.stable then .ccw else .cw := by
  rw [rotaryStep_evt, edgeOf_eq_rising_iff.mpr ⟨hold, hnew⟩, dirOf_rising]

/-- R74: with a window of one sample a line's level is that sample. -/
theorem sampleLine_one_stable {d : Debouncer} (hok : LineOk 1 d) (r : Bool) : (sampleLine 1 d r).1.stable = r :=
  have ⟨_, hlevel, _⟩ := windowOfOneFollowsTheRawLevel d r hok
  hlevel

theorem rotaryStep_levels_of_window_one {p : Params} (hn : p.nEnc = 1) {enc : Encoder} (hA : LineOk 1 enc.a)
    (hB : LineOk 1 enc.b) (ra rb : Bool) :
    (rotaryStep p enc ra rb).a.stable = ra ∧ (rotaryStep p enc ra rb).b.stable = rb := by
  rw [rotaryStep_a, rotaryStep_b, hn]
  exact ⟨sampleLine_one_stable hA ra, sampleLine_one_stable hB rb⟩

/-! ### One POLL -/

/-- Settles O25: the encoder's step is the primitive on its own registers, its direction written out. -/
theorem pollStepsEveryEncoder : Obligations.PollStepsEveryEncoder := by
  refine fun s x hf => ⟨_, exec_poll_of_running x hf, fun j => ?_⟩
  rw [exec_poll_encoder (exec_poll_of_running x hf) j]
  refine ⟨rfl, rfl, rfl, rfl, ?_⟩
  rw [rotaryStep_evt, dirOf_eq_ite, viewedB_eq_ite]
  rfl

/-- Settles O29: only a rising edge gives a direction, and phase A's edge is its level's change. -/
theorem onlyARisingPhaseAEmits : Obligations.OnlyARisingPhaseAEmits := by
  intro s t x j h
  rw [exec_poll_encoder h j, rotaryStep_evt, Ne, dirOf_eq_none_iff, not_not, edgeOf_eq_rising_iff]

/-- Settles O30: on a rise of phase A the viewed level decides; the example's two POLLs are computed. -/
theorem simultaneousRiseFollowsTheView : Obligations.SimultaneousRiseFollowsTheView := by
  refine ⟨fun s t x j h hold hnew _ => ?_, fun v => ?_⟩
  · rw [exec_poll_encoder h j] at hnew ⊢
    rw [rotaryStep_evt_of_rise hold hnew]
    exact ⟨fun hview => by rw [hview, viewedB_after], fun hview => by rw [hview, viewedB_before]⟩
  · refine ⟨_, _, exec_poll_of_running _ rfl, exec_poll_of_running _ rfl, ?_⟩
    cases v <;> decide

/-- Settles O31: the lines do not read the view, and it matters on a rise whose two viewed levels differ. -/
theorem viewsDifferOnlyInThatCorner : Obligations.ViewsDifferOnlyInThatCorner := by
  intro s t t' x j h h'
  rw [exec_poll_encoder h j, exec_poll_encoder h' j]
  exact ⟨rfl, rfl, dirOf_ne_dirOf_iff.trans (and_congr_left' edgeOf_eq_rising_iff)⟩

/-- Settles O32: with a window of one, each level before and after the tick is the window's sample. -/
theorem encoderWindowOfOne : Obligations.EncoderWindowOfOne := by
  intro s x hf hinv hn
  obtain ⟨-, -, henc, -⟩ := hinv
  refine ⟨_, exec_poll_of_running x hf, fun j => ?_⟩
  obtain ⟨hokA, hokB, -⟩ := henc j
  rw [hn] at hokA hokB
  obtain ⟨ha, hb⟩ := rotaryStep_levels_of_window_one hn hokA hokB (x.getLsbD (4 + j)) (x.getLsbD (8 + j))
  rw [exec_poll_encoder (exec_poll_of_running x hf) j]
  refine ⟨ha, hb, fun hview => ?_⟩
  rw [rotaryStep_evt, ha, hb, hview, viewedB_after, dirOf_eq_cw_iff, edgeOf_eq_rising_iff, stable_eq_of_lineOk_one hokA,
    and_assoc, and_left_comm]

end Sys2Proof.Machine
end

section
/-! SUPPORT. One encoder fed phase samples in order, and the quadrature cycle (spec/41_rotary.md R88, R92). -/

namespace Sys2Proof.Machine

/-! ### Lines fed one level -/

theorem noRunOf_replicate_pred {n : Nat} (hn : 0 < n) (v : Bool) : NoRunOf n v (List.replicate (n - 1) v) :=
  noRunOf_of_length_le (by simp) fun h => (Nat.sub_one_lt hn.ne').ne (by simpa using congrArg List.length h)

section Legal

variable {n : Nat} (hn : windowLengthOk n = true)
include hn

/-- R71: a tick takes a line nowhere but to its sample's level. -/
theorem sampleLine_stable_eq_or (d : Debouncer) (r : Bool) :
    (sampleLine n d r).1.stable = d.stable ∨ (sampleLine n d r).1.stable = r := by
  obtain ⟨hpos, hle⟩ := windowLengthOk_iff.mp hn
  refine or_iff_not_imp_left.mpr fun hne => ?_
  have hflip := Bool.eq_not.mpr hne
  have hbit := (sampleLine_flips_iff hn d r).mp hflip 0 hpos
  rw [sampleLine_hist_getLsbD hle d r hpos, if_pos rfl] at hbit
  exact hflip.trans hbit.symm

theorem sampleLine_stable_of_held {d : Debouncer} {r : Bool} (h : d.stable = r) : (sampleLine n d r).1.stable = r :=
  (sampleLine_stable_eq_or hn d r).elim (·.trans h) id

/-- A consistent line whose window is full of one level is at rest at that level. -/
theorem eq_initialLine_of_windowSamples {d : Debouncer} {v : Bool} (hok : LineOk n d)
    (hw : windowSamples n d = List.replicate n v) : d = initialLine n v := by
  obtain ⟨hpos, hle⟩ := windowLengthOk_iff.mp hn
  have hbits := windowSamples_eq_replicate_iff.mp hw
  have ⟨hlt, _⟩ := hok
  have hhist : d.hist = uniformWindow n v := BitVec.eq_of_getLsbD_eq fun k hk => by
    rw [uniformWindow_getLsbD]
    by_cases hkn : k < n
    · rw [hbits k hkn]
      simp [hk, hkn]
    · have hhigh : d.hist.toNat < 2 ^ k := hlt.trans_le (Nat.pow_le_pow_right (by decide) (not_lt.mp hkn))
      simp [hkn, BitVec.getLsbD, Nat.testBit_lt_two_pow hhigh]
  have hstable : d.stable = v := by
    by_contra hne
    exact not_all_flipped_of_lineOk hok fun k hk => (hbits k hk).trans (Bool.eq_not.mpr (Ne.symm hne))
  exact congrArg₂ Debouncer.mk hhist hstable

/-- At least N samples of one level bring a line to rest at that level. -/
theorem lineRun_replicate_eq_initialLine (d : Debouncer) {k : Nat} (hk : n ≤ k) (v : Bool) :
    (lineRun n d (List.replicate k v)).1 = initialLine n v := by
  obtain ⟨hpos, -⟩ := windowLengthOk_iff.mp hn
  refine eq_initialLine_of_windowSamples hn ?_ ?_
  · obtain ⟨m, rfl⟩ := Nat.exists_eq_add_one.mpr (hpos.trans_le hk)
    rw [List.replicate_succ', lineRun_append]
    exact lineOk_sampleLine hn _ v
  · have hlatest : List.replicate n v <:+ List.replicate k v :=
      ⟨List.replicate (k - n) v, by rw [List.replicate_append_replicate, Nat.sub_add_cancel hk]⟩
    exact (List.suffix_of_suffix_length_le (windowSamples_lineRun_suffix hn d _)
      (hlatest.trans (List.suffix_append _ _))
      (by simp [windowSamples_length])).eq_of_length (by simp [windowSamples_length])

end Legal

/-! ### Runs of one encoder -/

theorem encoderRun_cons (p : Params) (enc : Encoder) (ab : Bool × Bool) (xs : List (Bool × Bool)) :
    encoderRun p enc (ab :: xs)
      = ((encoderRun p (rotaryStep p enc ab.1 ab.2) xs).1,
          (rotaryStep p enc ab.1 ab.2).evt :: (encoderRun p (rotaryStep p enc ab.1 ab.2) xs).2) := rfl

theorem encoderRun_append (p : Params) (enc : Encoder) (xs ys : List (Bool × Bool)) :
    encoderRun p enc (xs ++ ys)
      = ((encoderRun p (encoderRun p enc xs).1 ys).1,
          (encoderRun p enc xs).2 ++ (encoderRun p (encoderRun p enc xs).1 ys).2) := by
  induction xs generalizing enc with
  | nil => rfl
  | cons ab xs ih => simp only [List.cons_append, encoderRun_cons, ih]

/-- R85: each phase is its own line's run, and the event register holds the last tick's event. -/
theorem encoderRun_fst (p : Params) (enc : Encoder) (xs : List (Bool × Bool)) :
    (encoderRun p enc xs).1
      = ⟨(lineRun p.nEnc enc.a (xs.map Prod.fst)).1, (lineRun p.nEnc enc.b (xs.map Prod.snd)).1,
          (encoderRun p enc xs).2.getLastD enc.evt⟩ := by
  induction xs generalizing enc with
  | nil => rfl
  | cons ab xs ih =>
    rw [encoderRun_cons, List.getLastD_cons]
    exact ih _

/-- An encoder whose lines are at rest at the levels `a` and `b`. -/
def restingEncoder (p : Params) (a b : Bool) (evt : Dir) : Encoder := ⟨initialLine p.nEnc a, initialLine p.nEnc b, evt⟩

section Legal

variable {p : Params} (hn : windowLengthOk p.nEnc = true)
include hn

/-- At least N_ENC ticks of one state bring the encoder to rest in it. -/
theorem encoderRun_replicate_fst (enc : Encoder) {k : Nat} (hk : p.nEnc ≤ k) (a b : Bool) :
    (encoderRun p enc (List.replicate k (a, b))).1
      = restingEncoder p a b ((encoderRun p enc (List.replicate k (a, b))).2.getLastD enc.evt) := by
  rw [encoderRun_fst, List.map_replicate, List.map_replicate, lineRun_replicate_eq_initialLine hn _ hk,
    lineRun_replicate_eq_initialLine hn _ hk, restingEncoder]

/-- R88: a tick reports nothing unless phase A is sampled high while its level is low. -/
theorem rotaryStep_evt_eq_none {enc : Encoder} {a : Bool} (h : a = true → enc.a.stable = true) (b : Bool) :
    (rotaryStep p enc a b).evt = .none := by
  rw [rotaryStep_evt, dirOf_eq_none_iff, Ne, edgeOf_eq_rising_iff]
  rintro ⟨hold, hnew⟩
  obtain hheld | hsample := sampleLine_stable_eq_or hn enc.a a
  · exact Bool.false_ne_true (hold.symm.trans (hheld.symm.trans hnew))
  · exact Bool.false_ne_true (hold.symm.trans (h (hsample.symm.trans hnew)))

/-- R88: no event while phase A is sampled low, or high with its level high already. -/
theorem encoderRun_replicate_evts {enc : Encoder} {a : Bool} (h : a = true → enc.a.stable = true) (b : Bool) (k : Nat) :
    (encoderRun p enc (List.replicate k (a, b))).2 = List.replicate k .none := by
  induction k generalizing enc with
  | zero => rfl
  | succ k ih =>
    have hheld : a = true → (rotaryStep p enc a b).a.stable = true := by
      rintro rfl
      exact sampleLine_stable_of_held hn (h rfl)
    rw [List.replicate_succ, encoderRun_cons, rotaryStep_evt_eq_none hn h, ih hheld, List.replicate_succ]

/-- A state of the cycle without a rise of phase A: the encoder comes to rest in it and reports nothing. -/
theorem encoderRun_silent {enc : Encoder} {a : Bool} (h : a = true → enc.a.stable = true) (b : Bool) {k : Nat}
    (hk : p.nEnc ≤ k) :
    encoderRun p enc (List.replicate k (a, b)) = (restingEncoder p a b .none, List.replicate k .none) := by
  obtain ⟨hpos, -⟩ := windowLengthOk_iff.mp hn
  obtain ⟨m, rfl⟩ := Nat.exists_eq_add_one.mpr (hpos.trans_le hk)
  have hevts := encoderRun_replicate_evts hn h b (m + 1)
  refine Prod.ext ?_ hevts
  rw [encoderRun_replicate_fst hn enc hk, hevts, List.replicate_succ', List.getLastD_concat]

/-- While phase B is sampled at its own level, that level turns phase A's edges into the events. -/
theorem encoderRun_evts_of_b_held {enc : Encoder} {b : Bool} (hb : enc.b.stable = b) (as : List Bool) :
    (encoderRun p enc (as.map (·, b))).2 = (lineRun p.nEnc enc.a as).2.map (dirOf · b) := by
  induction as generalizing enc with
  | nil => rfl
  | cons r as ih =>
    have hheld : (rotaryStep p enc r b).b.stable = b := sampleLine_stable_of_held hn hb
    rw [List.map_cons, encoderRun_cons, ih hheld, rotaryStep_evt, hheld, hb, viewedB_self]
    rfl

/-- R92's one event: the state in which phase A rises reports phase B's level, on its N_ENC-th tick. -/
theorem encoderRun_rise_evts (b : Bool) (evt : Dir) {k : Nat} (hk : p.nEnc ≤ k) :
    (encoderRun p (restingEncoder p false b evt) (List.replicate k (true, b))).2
      = List.replicate (p.nEnc - 1) .none ++ (if b then .ccw else .cw) :: List.replicate (k - p.nEnc) .none := by
  obtain ⟨hpos, -⟩ := windowLengthOk_iff.mp hn
  have hedges : (lineRun p.nEnc (initialLine p.nEnc false) (List.replicate p.nEnc true)).2
      = List.replicate (p.nEnc - 1) .none ++ [.rising] := by
    have ⟨_, _, hfirst⟩ := firstEdgeOnNthSample_initialLine hn false
    simpa using hfirst [] (noRunOf_replicate_pred hpos true)
  have hrise : (encoderRun p (restingEncoder p false b evt) (List.replicate p.nEnc (true, b))).2
      = List.replicate (p.nEnc - 1) .none ++ [if b then .ccw else .cw] := by
    have hevts :=
      encoderRun_evts_of_b_held hn (enc := restingEncoder p false b evt) (b := b) rfl (List.replicate p.nEnc true)
    rw [List.map_replicate] at hevts
    rw [hevts, restingEncoder, hedges, List.map_append, List.map_replicate, List.map_singleton, dirOf_rising]
    rfl
  have hrest := encoderRun_replicate_evts hn (a := true) (b := b) (k := k - p.nEnc)
    (enc := (encoderRun p (restingEncoder p false b evt) (List.replicate p.nEnc (true, b))).1)
    fun _ => by rw [encoderRun_replicate_fst hn _ le_rfl]; rfl
  rw [← Nat.add_sub_cancel' hk, ← List.replicate_append_replicate, encoderRun_append, hrise, hrest]
  simp

/-- The same state of the cycle with the registers it leaves. -/
theorem encoderRun_rise (b : Bool) (evt : Dir) {k : Nat} (hk : p.nEnc ≤ k) :
    ∃ evt', encoderRun p (restingEncoder p false b evt) (List.replicate k (true, b))
      = (restingEncoder p true b evt',
          List.replicate (p.nEnc - 1) .none ++ (if b then .ccw else .cw) :: List.replicate (k - p.nEnc) .none) :=
  ⟨_, Prod.ext (encoderRun_replicate_fst hn _ hk true b) (encoderRun_rise_evts hn b evt hk)⟩

end Legal

/-- Settles O33: one of the cycle's four states has the rise of phase A, phase B at rest low or high by the leading phase; the
other three sample phase A low or at its level already. -/
theorem oneEventPerQuadratureCycle : Obligations.OneEventPerQuadratureCycle := by
  intro p k1 k2 k3 k4 e hp h1 h2 h3 h4
  obtain ⟨-, hn⟩ := Params.wellFormed_iff.mp hp
  obtain ⟨evtA, hriseA⟩ := encoderRun_rise hn false e h1
  obtain ⟨evtB, hriseB⟩ := encoderRun_rise hn true .none h2
  have hlow : ∀ evt, ⟨initialLine p.nEnc false, initialLine p.nEnc false, evt⟩ = restingEncoder p false false evt :=
    fun _ => rfl
  have hsilentLow := fun enc => encoderRun_silent hn (enc := enc) (a := false) nofun
  have hsilentHigh := fun b evt => encoderRun_silent hn (enc := restingEncoder p true b evt) (a := true) fun _ => rfl
  simp [encoderRun_append, hlow, hriseA, hriseB, hsilentLow, hsilentHigh, h1, h2, h3, h4]

end Sys2Proof.Machine
end

section
/-! SUPPORT. The control commands' whole next states: an illegal word and RESET (spec/42_control.md R100-R102;
spec/70_reset_and_hazards.md R150). -/

namespace Sys2Proof.Machine

/-- R102, R131: after an illegal word's step the block is faulted, and neither a step nor a command has a next state. -/
theorem step_of_illegalWord_is_final {s : State} {cmd : Word} {rest : List HostInput} (hf : s.fault = false)
    (hi : s.inbox = .command cmd :: rest) (hw : illegalWord cmd = true) :
    ∃ t, step s = .next t ∧ t.fault = true ∧ step t = .fault .illegalCommand ∧ ∀ i, exec i t = .fault .illegalCommand := by
  have hstep := step_of_illegalWord hf hi hw
  have hfault := step_illegalWord_sets_fault hi hw hstep
  exact ⟨_, hstep, hfault, step_of_faulted hfault, fun i => exec_of_faulted i hfault⟩

/-- Settles O8: the illegal word's step sets the fault on the state with the word taken, and a faulted block is stuck. -/
theorem illegalWordSetsOnlyFault : Obligations.IllegalWordSetsOnlyFault :=
  ⟨fun _ _ _ => step_of_illegalWord, by decide, by decide, by decide,
    fun _ _ hf hi => step_of_illegalWord_is_final hf hi (by decide)⟩

/-- R100, R150: on a running block RESET's registers are those of power-on; the host's side and the record are not RESET's. -/
theorem resetUnits_setResponse_eq_powerOn {s : State} (hf : s.fault = false) (w : Word) :
    (resetUnits s).setResponse w
      = { State.powerOn s.params with inbox := s.inbox, faultCmd := s.faultCmd, response := some w } := by
  simp only [resetUnits, State.setUnits, State.setResponse, State.powerOn, hf]

/-- Settles O13: RESET completes, and the fault bit it keeps is the 0 of power-on because the block runs. -/
theorem resetIsPowerOnAgain : Obligations.ResetIsPowerOnAgain := fun _ hf => by
  rw [exec_reset_of_running hf, resetUnits_setResponse_eq_powerOn hf]

end Sys2Proof.Machine
end

section
/-! SUPPORT. POLL's response as the event word of the new events, and a POLL of the held levels (spec/43_poll.md R111, R113;
spec/30_encoding.md R55). -/

namespace Sys2Proof.Machine

/-! ### The response (R111) -/

/-- R55: the event word has nothing above its sixteen event bits. -/
theorem eventWord_toNat_lt (s : State) : (eventWord s).toNat < 2 ^ 16 := by
  rw [eventWord, BitVec.toNat_setWidth_of_le (by decide)]
  exact BitVec.isLt _

theorem eventWord_edge_toNat (s : State) (i : Fin 4) :
    (eventWord s).toNat / 2 ^ (2 * i.val) % 4 = (s.switches[i].edge.code).toNat := by
  rw [← toNat_extractLsb'_two, ← eventWordEdge_eventWord, eventWordEdge]

theorem eventWord_dir_toNat (s : State) (j : Fin 4) :
    (eventWord s).toNat / 2 ^ (8 + 2 * j.val) % 4 = (s.encoders[j].evt.code).toNat := by
  rw [← toNat_extractLsb'_two, ← eventWordDir_eventWord, eventWordDir]

/-- READ_EVENTS completes on every running block (R122). -/
theorem exec_readEvents_of_running {s : State} (h : s.fault = false) :
    exec .readEvents s = .next (s.setResponse (eventWord s)) :=
  complete_of_running id eventWord h

/-- Settles O26: the response is the event word of the registers POLL wrote, and READ_EVENTS reads the same registers. -/
theorem pollRespondsWithTheNewEvents : Obligations.PollRespondsWithTheNewEvents := fun s x hf =>
  ⟨_, _, exec_poll_of_running x hf, rfl, eventWord_edge_toNat (pollUnits x s), eventWord_dir_toNat (pollUnits x s),
    eventWord_toNat_lt _, exec_readEvents_of_running hf⟩

/-! ### The held levels (R113) -/

/-- R113's condition on a line: its window is all ones or all zeros. -/
abbrev HasUniformWindow (n : Nat) (d : Debouncer) : Prop :=
  lineWindow n d = BitVec.allOnes n ∨ lineWindow n d = 0#n

/-- R34: a uniform window of a consistent line is full of the level the line holds. -/
theorem hist_bits_eq_stable_of_uniform {n : Nat} {d : Debouncer} (hok : LineOk n d) (hw : HasUniformWindow n d) :
    ∀ k < n, d.hist.getLsbD k = d.stable := by
  obtain ⟨-, hones, hzero⟩ := hok
  obtain hw | hw := hw
  · rw [hones hw]
    exact (lineWindow_eq_uniform_iff d true).mp hw
  · rw [hzero hw]
    exact (lineWindow_eq_uniform_iff d false).mp hw

/-- R71: one more sample of the level that fills the window already moves nothing. -/
theorem sampleLine_of_uniform {n : Nat} (hn : windowLengthOk n = true) {d : Debouncer} (hok : LineOk n d)
    (hw : HasUniformWindow n d) : sampleLine n d d.stable = (d, .none) := by
  obtain ⟨-, hle⟩ := windowLengthOk_iff.mp hn
  have hbits := hist_bits_eq_stable_of_uniform hok hw
  have hbits' : ∀ k < n, (sampleLine n d d.stable).1.hist.getLsbD k = d.stable := fun k hk => by
    rw [sampleLine_hist_getLsbD hle d _ hk, hbits (k - 1) (by omega), ite_self]
  have hline : (sampleLine n d d.stable).1 = d := calc
    (sampleLine n d d.stable).1 = initialLine n d.stable :=
      eq_initialLine_of_windowSamples hn (lineOk_sampleLine hn d _) (windowSamples_eq_replicate_iff.mpr hbits')
    _ = d := (eq_initialLine_of_windowSamples hn hok (windowSamples_eq_replicate_iff.mpr hbits)).symm
  exact Prod.ext hline (by rw [sampleLine_edge, hline, edgeOf_self])

theorem switchStep_of_uniform {p : Params} (hn : windowLengthOk p.nSw = true) {sw : Switch} (hok : LineOk p.nSw sw.line)
    (hw : HasUniformWindow p.nSw sw.line) : switchStep p sw sw.line.stable = ⟨sw.line, .none⟩ := by
  rw [switchStep, sampleLine_of_uniform hn hok hw]

theorem rotaryStep_of_uniform {p : Params} (hn : windowLengthOk p.nEnc = true) {enc : Encoder} (hokA : LineOk p.nEnc enc.a)
    (hokB : LineOk p.nEnc enc.b) (hwA : HasUniformWindow p.nEnc enc.a) (hwB : HasUniformWindow p.nEnc enc.b) :
    rotaryStep p enc enc.a.stable enc.b.stable = ⟨enc.a, enc.b, .none⟩ := by
  rw [rotaryStep, sampleLine_of_uniform hn hokA hwA, sampleLine_of_uniform hn hokB hwB, dirOf]

/-- R56: with every event NONE the event word is 0. -/
theorem eventWord_eq_zero {s : State} (hsw : ∀ i : Fin 4, s.switches[i].edge = .none)
    (henc : ∀ j : Fin 4, s.encoders[j].evt = .none) : eventWord s = 0x00000000#32 := by
  simp only [eventWord, hsw, henc]
  rfl

/-- Settles O28: each line's sample is the level its window is full of, so no line moves and no unit has an event. -/
theorem pollOfTheHeldLevelsChangesNoLine : Obligations.PollOfTheHeldLevelsChangesNoLine := by
  intro s x hf hinv hsw henc
  obtain ⟨hp, hswOk, hencOk, -⟩ := hinv
  obtain ⟨hnSw, hnEnc⟩ := Params.wellFormed_iff.mp hp
  have hpoll := exec_poll_of_running x hf
  have hswitch : ∀ i : Fin 4, (pollUnits x s).switches[i] = ⟨s.switches[i].line, .none⟩ := fun i => by
    obtain ⟨hw, hx⟩ := hsw i
    obtain ⟨hok, -⟩ := hswOk i
    exact (exec_poll_switch hpoll i).trans (hx ▸ switchStep_of_uniform hnSw hok hw)
  have hencoder : ∀ j : Fin 4, (pollUnits x s).encoders[j] = ⟨s.encoders[j].a, s.encoders[j].b, .none⟩ := fun j => by
    obtain ⟨hwA, hxA, hwB, hxB⟩ := henc j
    obtain ⟨hokA, hokB, -⟩ := hencOk j
    exact (exec_poll_encoder hpoll j).trans (hxA ▸ hxB ▸ rotaryStep_of_uniform hnEnc hokA hokB hwA hwB)
  have hword : eventWord (pollUnits x s) = 0x00000000#32 :=
    eventWord_eq_zero (fun i => by rw [hswitch i]) (fun j => by rw [hencoder j])
  refine ⟨_, hpoll, congrArg some hword, fun i => ?_, fun j => ?_⟩
  · simp only [State.setResponse_switches, hswitch i, and_self]
  · simp only [State.setResponse_encoders, hencoder j, and_self]

end Sys2Proof.Machine
end

section
/-! SUPPORT. The words the two reads answer, in any running state and right after RESET (spec/44_read.md R120-R122;
spec/30_encoding.md R54, R55). -/

namespace Sys2Proof.Machine

/-! ### The level word (R54, R120) -/

/-- R54: the twelve lines' bits are all of a line vector. -/
theorem lines_ext {v w : Lines} (hsw : ∀ i, switchBit v i = switchBit w i) (ha : ∀ j, phaseABit v j = phaseABit w j)
    (hb : ∀ j, phaseBBit v j = phaseBBit w j) : v = w := by
  refine BitVec.eq_of_getLsbD_eq fun k hk => ?_
  by_cases h4 : k < 4
  · exact hsw ⟨k, h4⟩
  · by_cases h8 : k < 8
    · obtain ⟨m, rfl⟩ := Nat.exists_eq_add_of_le (Nat.le_of_not_lt h4)
      exact ha ⟨m, by omega⟩
    · obtain ⟨m, rfl⟩ := Nat.exists_eq_add_of_le (Nat.le_of_not_lt h8)
      exact hb ⟨m, by omega⟩

/-- The level word's low twelve bits are the stable levels' line vector. -/
theorem levelWord_getLsbD (s : State) {k : Nat} (hk : k < 12) : (levelWord s).getLsbD k = (stableLevels s).getLsbD k := by
  rw [levelWord, BitVec.getLsbD_setWidth, decide_eq_true (Nat.lt_trans hk (by decide)), Bool.true_and]

theorem levelWord_switch (s : State) (i : Fin 4) : (levelWord s).getLsbD i = s.switches[i].line.stable :=
  (levelWord_getLsbD s (by omega)).trans (lineVector_switch _ _ _ i)

theorem levelWord_phaseA (s : State) (j : Fin 4) : (levelWord s).getLsbD (4 + j) = s.encoders[j].a.stable :=
  (levelWord_getLsbD s (by omega)).trans (lineVector_phaseA _ _ _ j)

theorem levelWord_phaseB (s : State) (j : Fin 4) : (levelWord s).getLsbD (8 + j) = s.encoders[j].b.stable :=
  (levelWord_getLsbD s (by omega)).trans (lineVector_phaseB _ _ _ j)

/-- R54: the level word has nothing above its twelve level bits. -/
theorem levelWord_toNat_lt (s : State) : (levelWord s).toNat < 2 ^ 12 := by
  rw [levelWord, BitVec.toNat_setWidth_of_le (by decide)]
  exact BitVec.isLt _

/-- READ_LEVELS completes on every running block (R120). -/
theorem exec_readLevels_of_running {s : State} (h : s.fault = false) :
    exec .readLevels s = .next (s.setResponse (levelWord s)) :=
  complete_of_running id levelWord h

/-- Settles O37: the response is the level word, each of whose fields is its line's stable level. -/
theorem readLevelsReturnsTheStableLevels : Obligations.ReadLevelsReturnsTheStableLevels := fun s hf =>
  ⟨levelWord s, exec_readLevels_of_running hf, levelWord_switch s, fun j => ⟨levelWord_phaseA s j, levelWord_phaseB s j⟩,
    levelWord_toNat_lt s⟩

/-! ### The reads right after RESET (R121, R122) -/

/-- R33: RESET leaves every line stable at its INIT_LEVELS bit. -/
theorem stableLevels_resetUnits (s : State) : stableLevels (resetUnits s) = s.params.initLevels := by
  refine lines_ext (fun i => ?_) (fun j => ?_) (fun j => ?_)
  · rw [stableLevels, lineVector_switch, resetUnits_switches, Fin.getElem_fin, initialSwitches_getElem, initialLine_stable]
  · rw [stableLevels, lineVector_phaseA, resetUnits_encoders, Fin.getElem_fin, initialEncoders_getElem, initialLine_stable]
  · rw [stableLevels, lineVector_phaseB, resetUnits_encoders, Fin.getElem_fin, initialEncoders_getElem, initialLine_stable]

theorem levelWord_resetUnits (s : State) : levelWord (resetUnits s) = s.params.initLevels.setWidth 32 :=
  congrArg (BitVec.setWidth 32) (stableLevels_resetUnits s)

/-- R33: RESET leaves no event. -/
theorem eventWord_resetUnits (s : State) : eventWord (resetUnits s) = 0x00000000#32 := by
  refine eventWord_eq_zero (fun i => ?_) (fun j => ?_)
  · rw [resetUnits_switches, Fin.getElem_fin, initialSwitches_getElem]
  · rw [resetUnits_encoders, Fin.getElem_fin, initialEncoders_getElem]

/-- R121: RESET completes, and READ_LEVELS after it answers INIT_LEVELS. -/
theorem readLevels_after_reset {s : State} (hf : s.fault = false) :
    ∃ t, exec .reset s = .next t
      ∧ exec .readLevels t = .next { t with response := some (s.params.initLevels.setWidth 32) } := by
  refine ⟨_, exec_reset_of_running hf, ?_⟩
  rw [exec_readLevels_of_running (s := (resetUnits s).setResponse _) hf, levelWord_setResponse, levelWord_resetUnits]
  rfl

/-- R122: RESET completes, and READ_EVENTS after it answers 0. -/
theorem readEvents_after_reset {s : State} (hf : s.fault = false) :
    ∃ t, exec .reset s = .next t ∧ exec .readEvents t = .next { t with response := some 0x00000000#32 } := by
  refine ⟨_, exec_reset_of_running hf, ?_⟩
  rw [exec_readEvents_of_running (s := (resetUnits s).setResponse _) hf, eventWord_setResponse, eventWord_resetUnits]
  rfl

/-- Settles O38: RESET makes every line stable at its INIT_LEVELS bit, and the default INIT_LEVELS are 0. -/
theorem readLevelsAfterReset : Obligations.ReadLevelsAfterReset := by
  refine ⟨fun _ => readLevels_after_reset, fun s hf hdefault => ?_⟩
  have hzero : s.params.initLevels.setWidth 32 = 0x00000000#32 := by rw [hdefault]; rfl
  rw [← hzero]
  exact readLevels_after_reset hf

/-- Settles O39: the response is the event word, each of whose fields is its unit's code, and RESET leaves no event. -/
theorem readEventsReturnsTheEvents : Obligations.ReadEventsReturnsTheEvents :=
  ⟨fun s hf => ⟨eventWord s, exec_readEvents_of_running hf, eventWord_edge_toNat s, eventWord_dir_toNat s,
    eventWord_toNat_lt s⟩, fun _ => readEvents_after_reset⟩

end Sys2Proof.Machine
end

section
/-! SUPPORT. The one exception, and that legal commands and legal parameters raise none (spec/60_exceptions.md R131, R132;
spec/00_scope.md R7). -/

namespace Sys2Proof.Machine

/-! ### IllegalCommand (R131) -/

theorem inputRequest_of_encode (i : Instr) : inputRequest (.command (encode i)) = .run i := by
  simp only [inputRequest, wordRequest, decode_encode]

/-- Only a command word asks for the exception, and only an illegal one: the port view has no illegal commands (R58, R61). -/
theorem inputRequest_eq_illegal_iff {input : HostInput} {cmd : Word} :
    inputRequest input = .illegal cmd ↔ input = .command cmd ∧ illegalWord cmd = true := by
  refine ⟨fun h => ?_, fun ⟨hin, hw⟩ => hin ▸ inputRequest_of_illegalWord hw⟩
  cases input with
  | command word =>
    cases hw : illegalWord word with
    | true =>
      obtain rfl := Request.illegal.inj ((inputRequest_of_illegalWord hw).symm.trans h)
      exact ⟨rfl, hw⟩
    | false =>
      obtain ⟨i, rfl⟩ := exists_eq_encode_of_legal hw
      exact absurd ((inputRequest_of_encode i).symm.trans h) nofun
  | ports raw poll rst => cases rst <;> cases poll <;> exact absurd h nofun

/-- A command that completes leaves the fault bit at the 0 it ran under (R132). -/
theorem exec_leaves_running {i : Instr} {s t : State} (h : exec i s = .next t) : t.fault = false := by
  obtain ⟨u, hu, hrunning⟩ := exec_of_running i (exec_cases h).1
  obtain rfl := Host.Outcome.next.inj (hu.symm.trans h)
  exact hrunning

/-- A running block has a next state whatever waits: an illegal word's step is one too (log 4). -/
theorem step_of_running {s : State} (hf : s.fault = false) : ∃ t, step s = .next t := by
  cases hi : s.inbox with
  | nil =>
    rw [step, takeRequest_of_nil hi]
    exact ⟨s, ifRunning_of_running s hf⟩
  | cons input rest =>
    rw [step_of_cons hi]
    cases inputRequest input with
    | run i =>
      obtain ⟨t, ht, -⟩ := exec_of_running (s := s.setInbox rest) i hf
      exact ⟨t, ht⟩
    | illegal cmd => exact ⟨_, ifRunning_of_running _ hf⟩
    | nothing => exact ⟨_, ifRunning_of_running _ hf⟩

theorem step_eq_fault_iff {s : State} {r : Fault} : step s = .fault r ↔ s.fault = true ∧ r = .illegalCommand := by
  cases hf : s.fault with
  | true => simp [step_of_faulted hf]
  | false =>
    obtain ⟨t, ht⟩ := step_of_running hf
    simp [ht]

theorem step_ne_refused (s : State) (r : Refusal) : step s ≠ .refused r := by
  cases hf : s.fault with
  | true => simp [step_of_faulted hf]
  | false =>
    obtain ⟨t, ht⟩ := step_of_running hf
    simp [ht]

/-- Of the steps with a next state, a wait, a command and an idle sampling keep the fault bit 0, so the one that sets it took an
illegal word (R131). -/
theorem step_sets_fault_cases {s t : State} (h : step s = .next t) (ht : t.fault = true) :
    ∃ cmd rest, s.inbox = .command cmd :: rest ∧ illegalWord cmd = true ∧ t = (s.setInbox rest).setFault cmd := by
  obtain ⟨hf, ⟨-, rfl⟩ | ⟨input, rest, hi, ⟨i, -, hexec⟩ | ⟨cmd, hreq, rfl⟩ | ⟨-, rfl⟩⟩⟩ := step_cases h
  · exact absurd ht (Bool.eq_false_iff.mp hf)
  · exact absurd ht (Bool.eq_false_iff.mp (exec_leaves_running hexec))
  · obtain ⟨rfl, hw⟩ := inputRequest_eq_illegal_iff.mp hreq
    exact ⟨cmd, rest, hi, hw, rfl⟩
  · exact absurd ht (Bool.eq_false_iff.mp hf)

/-- Settles O10: a faulted block only faults, a running one always steps, and only an illegal word's step sets the bit. -/
theorem illegalCommandIsTheOnlyException : Obligations.IllegalCommandIsTheOnlyException :=
  ⟨rfl, fun _ _ => step_eq_fault_iff.mp, fun _ _ => step_sets_fault_cases, step_ne_refused⟩

/-! ### Commands and parameters (R132) -/

/-- R7's legal values as bounds on the two window lengths. -/
theorem Params.wellFormed_iff_bounds {p : Params} :
    p.wellFormed = true ↔ 1 ≤ p.nSw ∧ p.nSw ≤ 8 ∧ 1 ≤ p.nEnc ∧ p.nEnc ≤ 8 := by
  rw [Params.wellFormed_iff, windowLengthOk_iff, windowLengthOk_iff, and_assoc, Nat.succ_le_iff, Nat.succ_le_iff]

theorem construct_of_wellFormed {p : Params} (h : p.wellFormed = true) : construct p = .next (State.powerOn p) :=
  if_pos h

theorem construct_of_not_wellFormed {p : Params} (h : ¬ p.wellFormed = true) : construct p = .refused .illegalParameters :=
  if_neg h

/-- Settles O11: every command completes on a running block, and `construct` checks R7's bounds. -/
theorem legalCommandsNeverRaise : Obligations.LegalCommandsNeverRaise :=
  ⟨fun i _ => exec_of_running i, fun _ =>
    ⟨fun h => construct_of_wellFormed (Params.wellFormed_iff_bounds.mpr h),
      fun h => construct_of_not_wellFormed (h ∘ Params.wellFormed_iff_bounds.mp)⟩⟩

end Sys2Proof.Machine
end

section
/-! SUPPORT. The step with no input waiting (spec/70_reset_and_hazards.md R151). -/

namespace Sys2Proof.Machine

/-- What a step does with an empty inbox. -/
theorem step_of_nil {s : State} (h : s.inbox = []) : step s = wait s := by
  rw [step, takeRequest_of_nil h]

/-- Settles O6: with nothing waiting a step is a wait, and a running block's wait completes with the state it had. -/
theorem emptyInboxWaits : Obligations.EmptyInboxWaits := fun s hf hi =>
  (step_of_nil hi).trans (ifRunning_of_running s hf)

end Sys2Proof.Machine
end
